-- ==== Sys2Proof/Word.lean ====
section
/-! DEFINITION. The two bit widths of the machine: the 32-bit word (spec/00_scope.md R4, Word32) and the 8-bit value the
two streams carry (spec/45_output_input.md R119, R120). -/

namespace Sys2Proof

/-- Word32: a register, a memory word, an identifier, a word index or an instruction (R4). -/
abbrev Word := BitVec 32

/-- The value of one output or of one input byte, 0 to 255 (R119, R120). -/
abbrev Byte := BitVec 8

end Sys2Proof
end

