-- ==== Sys2Proof/Machine/Assoc.lean ====
section
/-! DEFINITION. Sparse data by a numeric key, kept in one canonical form: a list of entries with keys strictly rising.
Memory keeps its segments so, and a segment its words. -/

namespace Sys2Proof.Machine

variable {α : Type}

/-- The value stored under a key. -/
def Assoc.find (k : Nat) : List (Nat × α) → Option α
  | [] => none
  | (j, v) :: rest => if k = j then some v else Assoc.find k rest

/-- The list with `v` stored under `k`, in key order. -/
def Assoc.put (k : Nat) (v : α) : List (Nat × α) → List (Nat × α)
  | [] => [(k, v)]
  | (j, w) :: rest =>
    if k < j then (k, v) :: (j, w) :: rest
    else if k = j then (k, v) :: rest
    else (j, w) :: Assoc.put k v rest

/-- The list with nothing stored under `k`. -/
def Assoc.drop (k : Nat) (l : List (Nat × α)) : List (Nat × α) := l.filter (fun e => e.1 != k)

/-- Every key is above `k`. -/
def Assoc.above (k : Nat) (l : List (Nat × α)) : Bool := l.all (fun e => decide (k < e.1))

/-- The canonical order: keys strictly rising. -/
def Assoc.sorted : List (Nat × α) → Bool
  | [] => true
  | (k, _) :: rest => Assoc.above k rest && Assoc.sorted rest

end Sys2Proof.Machine
end

