-- ==== Sys2Proof/Config.lean ====
section
/-! DEFINITION. What the spec leaves to the implementation and no field of State carries: the allocation policy
(spec/44_map_unmap.md R114, spec/92_eei_decisions.md D9, OPEN). CAP_WORDS (R116), INPUT (R120) and the readiness of the
output sink (D23) are plain data in State, so that a statement about every state is a statement about every value of them. -/

namespace Sys2Proof

/-- ALLOC_POLICY (R114, D9): a FREE VALUE, the position of the identifier that MAP reuses, taken modulo the pool's length.
Its arguments are how many identifiers were reused before and the pool in order of reclamation, the latest first.
It has no body: a statement about MAP holds for every policy (notes/assumptions/2.md). -/
opaque Config.allocChoice : Nat → List Word → Nat

end Sys2Proof
end

