-- ==== Sys2Proof/Syntax.lean ====
section
/-! DEFINITION. The instructions: one constructor per row of spec/opcode_table.json, in the table's order
(spec/30_encoding.md R65), with the operands the row uses. -/

namespace Sys2Proof

/-- A register index, 0 to 7 "by construction of the 3-bit field" (spec/10_state.md R21). -/
abbrev Reg := Fin 8

/-- An instruction with the fields it uses (R65); ignored fields and bits are no part of it (R63). -/
inductive Instr where
  /-- 0, conditional move (R100). -/
  | cmov (a b c : Reg)
  /-- 1, segmented load (R101). -/
  | sload (a b c : Reg)
  /-- 2, segmented store (R102). -/
  | sstore (a b c : Reg)
  /-- 3, add (R103). -/
  | add (a b c : Reg)
  /-- 4, multiply (R104). -/
  | mul (a b c : Reg)
  /-- 5, divide (R105). -/
  | div (a b c : Reg)
  /-- 6, bitwise NAND (R106). -/
  | nand (a b c : Reg)
  /-- 7, halt (R110). -/
  | halt
  /-- 8, map segment: the identifier goes to `b`, the size comes from `c` (R111). -/
  | map (b c : Reg)
  /-- 9, unmap segment (R112). -/
  | unmap (c : Reg)
  /-- 10, output (R117). -/
  | out (c : Reg)
  /-- 11, input (R118). -/
  | inp (c : Reg)
  /-- 12, load program: segment `b`, new pc `c` (R122). -/
  | loadp (b c : Reg)
  /-- 13, load value: the immediate is a number below 2^25, which `Instr.WellFormed` checks (R66, R70, R123). -/
  | loadv (l : Reg) (v : Word)
  /-- 14, an encoding that selects no operation and is fatal when executed (R67). -/
  | invalid14
  /-- 15, the other encoding that selects no operation (R67). -/
  | invalid15
deriving DecidableEq, Repr

end Sys2Proof
end

