-- ==== Sys2Proof/Machine/State.lean ====
section
/-! DEFINITION. The whole state of the machine as plain data (spec/10_state.md R20, R35), its stop reasons, and the state
right after reset (R37). -/

namespace Sys2Proof.Machine

/-- The nine fatal kinds (spec/60_exceptions.md R131), in the order of their codes. -/
inductive FatalKind where
  | invalidOpcode
  | unmappedSegment
  | outOfBounds
  | divideByZero
  | invalidOutput
  | inputFailure
  | pcOutOfRange
  | unmapSegmentZero
  | resourceExhausted
deriving DecidableEq, Repr

/-- The run status (R31). -/
inductive Status where
  | running
  | halted
  | fatal (k : FatalKind)
deriving DecidableEq, Repr

/-- One event of the input stream (spec/45_output_input.md R120). -/
inductive InEvent where
  /-- `Byte(b)`. -/
  | byte (b : Byte)
  /-- Clean end of stream. -/
  | eof
  /-- Any other read failure. -/
  | failure
deriving DecidableEq, Repr

/-- A mapped segment: its length in words and its words that differ from zero, by rising index. A word that is not listed
reads as zero (R45, R111; notes/assumptions/1.md). -/
structure Segment where
  len : Nat
  cells : List (Nat × Word)
deriving DecidableEq, Repr

/-- Memory: the mapped segments by rising identifier; an identifier that is not listed is absent (R25, R27). -/
abbrev Memory := List (Nat × Segment)

/-- The state (R20), the environment-held data a model carries beside it (R35), the parameter CAP_WORDS (R116) and the
model's own counter for the allocation policy. -/
structure State where
  /-- The register file (R21). -/
  x : Vector Word 8
  /-- The program counter, a word index into segment 0 (R23). -/
  pc : Word
  /-- Memory, by identifier (R25). -/
  seg : Memory
  /-- The free-identifier pool, the latest reclaimed first (R28, R114). -/
  free : List Word
  /-- The run status (R31). -/
  status : Status
  /-- The input events the environment has delivered and no IN has consumed, the next one first (R120). -/
  input : List InEvent
  /-- The values emitted since reset, in order (R119). -/
  out : List Byte
  /-- Whether the output sink accepts a value now (R88, D23). -/
  sinkReady : Bool
  /-- CAP_WORDS; `none` is unbounded (R116). -/
  capWords : Option Nat
  /-- How many identifiers MAP has reused: the model's own field, an argument of the free policy (R114). -/
  reuses : Nat
deriving DecidableEq, Repr

/-- Why the machine stops with a fault. The spec's fatal conditions are not among these: they are next states (R143). -/
inductive Fault where
  /-- Raised by the fetch in a state that has no segment 0. No reachable state is such a state (R26), and the spec gives it
  no meaning. Safe: the model stops. -/
  | programSegmentAbsent
deriving DecidableEq, Repr

/-- Why an instruction has no meaning in the model. -/
inductive Refusal where
  /-- Raised by an arm of `exec` for an instruction not modelled yet; no arm is one. Safe: the model stops. -/
  | notModelled (mnemonic : String)
deriving DecidableEq, Repr

/-- The machine right after reset with the empty program image, no input event delivered yet, and unbounded storage
(R37, R116). A program comes in by `State.boot` (notes/assumptions/8.md). -/
def State.reset : State where
  x := Vector.replicate 8 0#32
  pc := 0#32
  seg := [(0, { len := 0, cells := [] })]
  free := []
  status := .running
  input := []
  out := []
  sinkReady := true
  capWords := none
  reuses := 0

end Sys2Proof.Machine
end

