-- ==== Sys2Proof/Machine/Ops.lean ====
section
/-! DEFINITION. The named operations over registers, program counter, memory, allocator, streams and status, and taking a
fatal condition, each written once. Every meaning is built from these. -/

namespace Sys2Proof.Machine

/-! ### Registers and program counter -/

/-- `x[i]` (spec/10_state.md R21): no register is hard-wired. -/
def State.readReg (s : State) (r : Reg) : Word := s.x[r]

/-- `x[i] <- v` (R21). -/
def State.writeReg (s : State) (r : Reg) (v : Word) : State := { s with x := s.x.set r v }

/-- `pc <- t` (R23). -/
def State.setPc (s : State) (t : Word) : State := { s with pc := t }

/-- `pc <- (pc + 1) mod 2^32` (spec/40_engine.md R84). -/
def State.advance (s : State) : State := s.setPc (s.pc + 1#32)

/-! ### Status: taking a fatal condition -/

/-- `raise Fatal(K)`: "does exactly: status <- Fatal(K)" (spec/60_exceptions.md R143). This is the machine's one exception
entry. There is no return from it (R144). -/
def State.raise (s : State) (k : FatalKind) : State := { s with status := .fatal k }

/-- `status <- Halted` (spec/43_halt.md R110). -/
def State.stop (s : State) : State := { s with status := .halted }

/-- The numeric code of a fatal kind (R131). -/
def FatalKind.code : FatalKind → Nat
  | .invalidOpcode => 1
  | .unmappedSegment => 2
  | .outOfBounds => 3
  | .divideByZero => 4
  | .invalidOutput => 5
  | .inputFailure => 6
  | .pcOutOfRange => 7
  | .unmapSegmentZero => 8
  | .resourceExhausted => 9

/-- The status as a number on the status port (R31). -/
def Status.port : Status → Nat
  | .running => 0
  | .halted => 1
  | .fatal k => 16 + k.code

/-! ### One segment -/

/-- What a word of a mapped segment reads as while nothing but zero was stored in it (R45, R111). -/
def unlistedWord : Word := 0#32

/-- A new segment of `n` words, "all zero-initialized" (spec/44_map_unmap.md R111). -/
def Segment.zeros (n : Nat) : Segment := { len := n, cells := [] }

/-- The word with index `i`, or nothing past the end (spec/20_memory.md R41). -/
def Segment.read (g : Segment) (i : Nat) : Option Word :=
  if i < g.len then some ((Assoc.find i g.cells).getD unlistedWord) else none

/-- The segment with word `i` replaced, whole; nothing past the end (R48). -/
def Segment.write (g : Segment) (i : Nat) (v : Word) : Option Segment :=
  if i < g.len then
    some { g with cells := if v = unlistedWord then Assoc.drop i g.cells else Assoc.put i v g.cells }
  else none

/-- The words that differ from zero among `ws`, whose first word has index `i`. -/
def cellsFrom (i : Nat) : List Word → List (Nat × Word)
  | [] => []
  | w :: ws => if w = unlistedWord then cellsFrom (i + 1) ws else (i, w) :: cellsFrom (i + 1) ws

/-- The segment that holds exactly the words `ws` (R37, R151). -/
def Segment.ofWords (ws : List Word) : Segment := { len := ws.length, cells := cellsFrom 0 ws }

/-- The canonical form of a segment: indices rising and below the length, no listed word zero, at most 2^32 - 1 words
(R42). -/
def Segment.wf (g : Segment) : Bool :=
  Assoc.sorted g.cells && g.cells.all (fun e => decide (e.1 < g.len) && decide (e.2 ≠ unlistedWord)) &&
    decide (g.len < 2 ^ 32)

/-! ### Memory -/

/-- The canonical form of memory: identifiers rising and below 2^32, every segment in canonical form. -/
def Memory.wf (m : Memory) : Bool :=
  Assoc.sorted m && m.all (fun e => decide (e.1 < 2 ^ 32) && e.2.wf)

/-- The segment an identifier names, if it is mapped (R25). -/
def State.segment? (s : State) (id : Word) : Option Segment := Assoc.find id.toNat s.seg

/-- `mapped(s)` (R25). -/
def State.mapped (s : State) (id : Word) : Bool := (s.segment? id).isSome

/-- `len(s)`, of a mapped identifier (R25). -/
def State.lenOf (s : State) (id : Word) : Option Nat := (s.segment? id).map (·.len)

/-- The word at the address `(id, i)`, if it is addressable (R41). -/
def State.wordAt (s : State) (id i : Word) : Option Word := (s.segment? id).bind (·.read i.toNat)

/-- `MemRead((id, i), 1)`: the mapping check, the bounds check, the word (R46, R47). -/
def State.memRead (s : State) (id i : Word) : Except FatalKind Word :=
  match s.segment? id with
  | none => .error .unmappedSegment
  | some g =>
    match g.read i.toNat with
    | none => .error .outOfBounds
    | some v => .ok v

/-- `MemWrite((id, i), 1, v)`: the same checks, then the whole word replaced (R46, R48). -/
def State.memWrite (s : State) (id i v : Word) : Except FatalKind State :=
  match s.segment? id with
  | none => .error .unmappedSegment
  | some g =>
    match g.write i.toNat v with
    | none => .error .outOfBounds
    | some g' => .ok { s with seg := Assoc.put id.toNat g' s.seg }

/-- `Fetch()` (R49). `none`: the state has no segment 0, which the spec excludes (R26). -/
def State.fetch (s : State) : Option (Except FatalKind Word) :=
  match s.segment? 0#32 with
  | none => none
  | some g =>
    match g.read s.pc.toNat with
    | none => some (.error .pcOutOfRange)
    | some w => some (.ok w)

/-! ### Allocator -/

/-- The words of all mapped segments together (R116). -/
def State.totalWords (s : State) : Nat := (s.seg.map (fun e => e.2.len)).sum

/-- The words of all mapped segments but segment 0 (R122). -/
def State.dataWords (s : State) : Nat := ((Assoc.drop 0 s.seg).map (fun e => e.2.len)).sum

/-- `n <= CAP_WORDS` (R116). -/
def State.fits (s : State) (n : Nat) : Bool :=
  match s.capWords with
  | none => true
  | some cap => decide (n ≤ cap)

/-- `Capacity(n)` (R116). -/
def State.capacity (s : State) (n : Nat) : Bool := s.fits (n + s.totalWords)

/-- `Capacity'(n)` (R122): the old segment 0 does not count. -/
def State.capacityForProgram (s : State) (n : Nat) : Bool := s.fits (n + s.dataWords)

/-- `next_id = 1 + max({0} ∪ mapped ∪ free)` (R29), a derived value. -/
def State.nextId (s : State) : Nat :=
  1 + (s.seg.map Prod.fst ++ s.free.map BitVec.toNat).foldl max 0

/-- `ALLOC_POLICY(free)` (R114): a member of the pool if it has one. A pool of one member leaves no choice; among several
the free value decides (notes/assumptions/2.md). -/
def pickFree (k : Nat) : List Word → Option Word
  | [] => none
  | [id] => some id
  | id₀ :: id₁ :: rest => (id₀ :: id₁ :: rest)[Config.allocChoice k (id₀ :: id₁ :: rest) % (rest.length + 2)]?

/-- `Alloc(n)` (R113): the capacity test, then reuse before a fresh identifier. -/
def State.alloc (s : State) (n : Nat) : Except FatalKind (Word × State) :=
  if s.capacity n then
    match pickFree s.reuses s.free with
    | some id =>
      .ok (id, { s with
        seg := Assoc.put id.toNat (Segment.zeros n) s.seg
        free := s.free.filter (· != id)
        reuses := s.reuses + 1 })
    | none =>
      if s.nextId < 2 ^ 32 then
        .ok (BitVec.ofNat 32 s.nextId, { s with seg := Assoc.put s.nextId (Segment.zeros n) s.seg })
      else .error .resourceExhausted
  else .error .resourceExhausted

/-- `Free(s)` (R115). -/
def State.release (s : State) (id : Word) : State :=
  { s with seg := Assoc.drop id.toNat s.seg, free := s.free.insert id }

/-- `seg(0) <- copy of g` (R122): a copy by value, sharing nothing (R57). -/
def State.setProgram (s : State) (g : Segment) : State := { s with seg := Assoc.put 0 g s.seg }

/-! ### Streams -/

/-- `Emit(b)` (spec/45_output_input.md R119). -/
def State.emit (s : State) (b : Byte) : State := { s with out := s.out ++ [b] }

/-- `Recv()` (R120): the next event and the state after it is consumed, or nothing while there is no event. -/
def State.recv (s : State) : Option (InEvent × State) :=
  match s.input with
  | [] => none
  | e :: rest => some (e, { s with input := rest })

/-! ### Placing an instruction for the next fetch -/

/-- `s` with the word `w` where the next fetch reads it: in segment 0 at `pc`, segment 0 made long enough, the machine
running. An index no segment has (R42) is replaced by 0. -/
def State.placeWord (s : State) (w : Word) : State :=
  let pc : Word := if s.pc.toNat + 1 < 2 ^ 32 then s.pc else 0#32
  let old := (s.segment? 0#32).getD (Segment.zeros 0)
  let long : Segment := { old with len := max old.len (pc.toNat + 1) }
  { s with seg := Assoc.put 0 ((long.write pc.toNat w).getD long) s.seg, pc := pc, status := .running }

end Sys2Proof.Machine
end

