-- ==== Sys2Proof/Machine/Operands.lean ====
section
/-! DEFINITION. The operand forms (spec/30_encoding.md R66): a register named by a 3-bit field, and the 25-bit immediate;
and the results of the four arithmetic operations (spec/42_add_mul_div_nand.md R103 to R106). -/

namespace Sys2Proof.Machine

/-- The value of the immediate: "zero-extended into the low 25 bits of a 32-bit register" (R66, R123). -/
def immediate (v : Word) : Word := (v.setWidth 25).setWidth 32

/-- ADD: the sum modulo 2^32 (R103). -/
def sumWord (b c : Word) : Word := BitVec.ofNat 32 (b.toNat + c.toNat)

/-- MUL: the low 32 bits of the product (R104). -/
def productWord (b c : Word) : Word := BitVec.ofNat 32 (b.toNat * c.toNat)

/-- DIV: the floor of the unsigned quotient, or nothing for a zero divisor (R105, R109). -/
def quotientWord? (b c : Word) : Option Word :=
  if c = 0#32 then none else some (BitVec.ofNat 32 (b.toNat / c.toNat))

/-- NAND: "bitwise NOT(register B AND register C), full 32-bit width" (R106). -/
def nandWord (b c : Word) : Word := ~~~(b &&& c)

/-- The 8-bit value an output emits, or nothing for a value above 255 (R117). -/
def outputByte? (v : Word) : Option Byte :=
  if v.toNat ≤ 255 then some (v.setWidth 8) else none

/-- The register value of a byte read (R118): `zext_32(b)`. -/
def wordOfByte (b : Byte) : Word := b.setWidth 32

/-- The register value at end of stream (R118, R4). -/
def endOfStream : Word := 0xFFFFFFFF#32

end Sys2Proof.Machine
end

