-- ==== Sys2Proof/Machine/Arithmetic.lean ====
section
/-! DEFINITION. ADD, MUL, DIV, NAND (spec/42_add_mul_div_nand.md). -/

namespace Sys2Proof.Machine

/-- ADD (R103). -/
def execAdd (a b c : Reg) (s : State) : Host.Outcome State Fault Refusal :=
  .next (s.writeReg a (sumWord (s.readReg b) (s.readReg c))).advance

/-- MUL (R104). -/
def execMul (a b c : Reg) (s : State) : Host.Outcome State Fault Refusal :=
  .next (s.writeReg a (productWord (s.readReg b) (s.readReg c))).advance

/-- DIV (R105). -/
def execDiv (a b c : Reg) (s : State) : Host.Outcome State Fault Refusal :=
  match quotientWord? (s.readReg b) (s.readReg c) with
  | none => .next (s.raise .divideByZero)
  | some q => .next (s.writeReg a q).advance

/-- NAND (R106). -/
def execNand (a b c : Reg) (s : State) : Host.Outcome State Fault Refusal :=
  .next (s.writeReg a (nandWord (s.readReg b) (s.readReg c))).advance

end Sys2Proof.Machine
end

