-- ==== Sys2Proof/Machine/Control.lean ====
section
/-! DEFINITION. HALT (spec/43_halt.md), LOADP (spec/46_load_program.md), LOADV (spec/47_load_value.md), and the two
encodings that select no operation (spec/30_encoding.md R67). -/

namespace Sys2Proof.Machine

/-- HALT (R110): the pc stays at the HALT. -/
def execHalt (s : State) : Host.Outcome State Fault Refusal := .next s.stop

/-- LOADP (R122): the mapping check, for another segment than 0 the capacity check and the copy, then the pc is exactly
`x[C]`, unchecked (D26). -/
def execLoadp (b c : Reg) (s : State) : Host.Outcome State Fault Refusal :=
  match s.segment? (s.readReg b) with
  | none => .next (s.raise .unmappedSegment)
  | some g =>
    if s.readReg b = 0#32 then .next (s.setPc (s.readReg c))
    else if s.capacityForProgram g.len then .next ((s.setProgram g).setPc (s.readReg c))
    else .next (s.raise .resourceExhausted)

/-- LOADV (R123). -/
def execLoadv (l : Reg) (v : Word) (s : State) : Host.Outcome State Fault Refusal :=
  .next (s.writeReg l (immediate v)).advance

/-- OP 14: "an invalid-instruction fatal error" (R67, spec/60_exceptions.md R132). -/
def execInvalid14 (s : State) : Host.Outcome State Fault Refusal := .next (s.raise .invalidOpcode)

/-- OP 15: the same (R67, R132). -/
def execInvalid15 (s : State) : Host.Outcome State Fault Refusal := .next (s.raise .invalidOpcode)

end Sys2Proof.Machine
end

