-- ==== Sys2Proof/Machine/Flags.lean ====
section
/-! DEFINITION. There are no flags, condition codes or predicate registers, and no operation records a carry, overflow,
zero or sign (spec/10_state.md R32). The machine's one condition is CMOV's test of a general register. -/

namespace Sys2Proof.Machine

/-- "Nonzero" over all 32 bits, the condition of CMOV (R32, spec/41_cmov_sload_sstore.md R100). -/
def conditionHolds (v : Word) : Bool := decide (v ≠ 0#32)

end Sys2Proof.Machine
end

