-- ==== Sys2Proof/Machine/MoveMemory.lean ====
section
/-! DEFINITION. CMOV, SLOAD, SSTORE (spec/41_cmov_sload_sstore.md). -/

namespace Sys2Proof.Machine

/-- CMOV (R100). -/
def execCmov (a b c : Reg) (s : State) : Host.Outcome State Fault Refusal :=
  if conditionHolds (s.readReg c) then .next (s.writeReg a (s.readReg b)).advance else .next s.advance

/-- SLOAD (R101): the segment is `x[B]`, the index `x[C]`. -/
def execSload (a b c : Reg) (s : State) : Host.Outcome State Fault Refusal :=
  match s.memRead (s.readReg b) (s.readReg c) with
  | .error k => .next (s.raise k)
  | .ok v => .next (s.writeReg a v).advance

/-- SSTORE (R102): the segment is `x[A]`, the index `x[B]`, the value `x[C]`. -/
def execSstore (a b c : Reg) (s : State) : Host.Outcome State Fault Refusal :=
  match s.memWrite (s.readReg a) (s.readReg b) (s.readReg c) with
  | .error k => .next (s.raise k)
  | .ok t => .next t.advance

end Sys2Proof.Machine
end

