-- ==== Sys2Proof/Machine/Segments.lean ====
section
/-! DEFINITION. MAP and UNMAP (spec/44_map_unmap.md). -/

namespace Sys2Proof.Machine

/-- MAP (R111): the size `x[C]` is read before `x[B]` receives the identifier. -/
def execMap (b c : Reg) (s : State) : Host.Outcome State Fault Refusal :=
  match s.alloc (s.readReg c).toNat with
  | .error k => .next (s.raise k)
  | .ok (id, t) => .next (t.writeReg b id).advance

/-- UNMAP (R112): identifier 0 is refused first, then an unmapped one. -/
def execUnmap (c : Reg) (s : State) : Host.Outcome State Fault Refusal :=
  if s.readReg c = 0#32 then .next (s.raise .unmapSegmentZero)
  else if s.mapped (s.readReg c) then .next (s.release (s.readReg c)).advance
  else .next (s.raise .unmappedSegment)

end Sys2Proof.Machine
end

