-- ==== Sys2Proof/Machine/Streams.lean ====
section
/-! DEFINITION. OUT and IN (spec/45_output_input.md). A wait is a step that changes nothing: the machine stays Running at
the same pc (spec/40_engine.md R88, R89). -/

namespace Sys2Proof.Machine

/-- OUT (R117): the range check, then the value is emitted once the sink accepts it (R119, D23). -/
def execOut (c : Reg) (s : State) : Host.Outcome State Fault Refusal :=
  match outputByte? (s.readReg c) with
  | none => .next (s.raise .invalidOutput)
  | some b => if s.sinkReady then .next (s.emit b).advance else .next s

/-- IN (R118): a `Failure` event is consumed although the step is fatal (R87). -/
def execIn (c : Reg) (s : State) : Host.Outcome State Fault Refusal :=
  match s.recv with
  | none => .next s
  | some (.byte b, t) => .next (t.writeReg c (wordOfByte b)).advance
  | some (.eof, t) => .next (t.writeReg c endOfStream).advance
  | some (.failure, t) => .next (t.raise .inputFailure)

end Sys2Proof.Machine
end

