-- ==== Sys2Proof/WellFormed.lean ====
section
/-! DEFINITION. Which instructions an encoding can carry (spec/30_encoding.md R70). Register operands fit their fields by
their type; the immediate of LOADV is the one operand with a check. -/

namespace Sys2Proof

/-- "An immediate above 0x01FFFFFF does not fit" (R70); every other form fits by its operands' types (R21). -/
def Instr.WellFormed : Instr → Bool
  | .cmov _ _ _ => true
  | .sload _ _ _ => true
  | .sstore _ _ _ => true
  | .add _ _ _ => true
  | .mul _ _ _ => true
  | .div _ _ _ => true
  | .nand _ _ _ => true
  | .halt => true
  | .map _ _ => true
  | .unmap _ => true
  | .out _ => true
  | .inp _ => true
  | .loadp _ _ => true
  | .loadv _ v => decide (v.toNat < 2 ^ 25)
  | .invalid14 => true
  | .invalid15 => true

end Sys2Proof
end

