-- ==== Sys2Proof/Decode.lean ====
section
/-! DEFINITION. The instruction decoder (spec/30_encoding.md R60 to R69), the selection of the operation by OP (R65), the
encoder (R70, R72), and the reading of instructions from a big-endian byte image (spec/20_memory.md R43). -/

namespace Sys2Proof

/-- The six fields the decoder extracts from every word (R61, R62). -/
structure Fields where
  op : BitVec 4
  ra : Reg
  rb : Reg
  rc : Reg
  rl : Reg
  vl : BitVec 25
deriving DecidableEq, Repr

/-- The field of `width` bits at offset `lsb`: "(word >> lsb) & ((1 << width) - 1)" (R62). -/
def fieldBits (lsb width : Nat) (w : Word) : BitVec width := w.extractLsb' lsb width

/-- A register index from its 3-bit field, with no translation (R66). -/
def regOfBits (b : BitVec 3) : Reg := ⟨b.toNat, b.isLt⟩

/-- The register field of three bits at offset `lsb`. -/
def regField (lsb : Nat) (w : Word) : Reg := regOfBits (fieldBits lsb 3 w)

/-- The decoder: total, with no error conditions (R62). -/
def decodeFields (w : Word) : Fields where
  op := fieldBits 28 4 w
  ra := regField 6 w
  rb := regField 3 w
  rc := regField 0 w
  rl := regField 25 w
  vl := fieldBits 0 25 w

/-- Dispatch by OP alone (R65, R83): which instruction the fields select. -/
def instrOfFields (f : Fields) : Instr :=
  match f.op.toNat with
  | 0 => .cmov f.ra f.rb f.rc
  | 1 => .sload f.ra f.rb f.rc
  | 2 => .sstore f.ra f.rb f.rc
  | 3 => .add f.ra f.rb f.rc
  | 4 => .mul f.ra f.rb f.rc
  | 5 => .div f.ra f.rb f.rc
  | 6 => .nand f.ra f.rb f.rc
  | 7 => .halt
  | 8 => .map f.rb f.rc
  | 9 => .unmap f.rc
  | 10 => .out f.rc
  | 11 => .inp f.rc
  | 12 => .loadp f.rb f.rc
  | 13 => .loadv f.rl (f.vl.setWidth 32)
  | 14 => .invalid14
  | _ => .invalid15

/-- The instruction a word stands for: every word is classified (R68). -/
def decode (w : Word) : Instr := instrOfFields (decodeFields w)

/-- `Encode3R` (R72). -/
def encode3R (op : Nat) (a b c : Reg) : Word :=
  BitVec.ofNat 32 (op * 2 ^ 28 + a.val * 2 ^ 6 + b.val * 2 ^ 3 + c.val)

/-- `EncodeLV` (R72), of the low 25 bits of the immediate. -/
def encodeLV (l : Reg) (v : Word) : Word :=
  BitVec.ofNat 32 (13 * 2 ^ 28 + l.val * 2 ^ 25 + v.toNat % 2 ^ 25)

/-- The canonical word of an instruction: unused fields and ignored bits are zero (R70). -/
def encode : Instr → Word
  | .cmov a b c => encode3R 0 a b c
  | .sload a b c => encode3R 1 a b c
  | .sstore a b c => encode3R 2 a b c
  | .add a b c => encode3R 3 a b c
  | .mul a b c => encode3R 4 a b c
  | .div a b c => encode3R 5 a b c
  | .nand a b c => encode3R 6 a b c
  | .halt => encode3R 7 0 0 0
  | .map b c => encode3R 8 0 b c
  | .unmap c => encode3R 9 0 0 c
  | .out c => encode3R 10 0 0 c
  | .inp c => encode3R 11 0 0 c
  | .loadp b c => encode3R 12 0 b c
  | .loadv l v => encodeLV l v
  | .invalid14 => encode3R 14 0 0 0
  | .invalid15 => encode3R 15 0 0 0

/-- Why a byte image yields no instruction: it ends inside a word (spec/92_eei_decisions.md D13). -/
inductive ImageError where
  | shortWord
deriving DecidableEq, Repr

/-- Four image bytes as a word, the first byte the most significant (R43). -/
def wordOfBytes (b0 b1 b2 b3 : Byte) : Word :=
  BitVec.ofNat 32 (b0.toNat * 2 ^ 24 + b1.toNat * 2 ^ 16 + b2.toNat * 2 ^ 8 + b3.toNat)

/-- The bytes of a word in image order (R43). -/
def bytesOfWord (w : Word) : List Byte :=
  [w.extractLsb' 24 8, w.extractLsb' 16 8, w.extractLsb' 8 8, w.extractLsb' 0 8]

/-- The first instruction of a byte image and the bytes after it. -/
def decodeBytes : List Byte → Except ImageError (Instr × List Byte)
  | b0 :: b1 :: b2 :: b3 :: rest => .ok (decode (wordOfBytes b0 b1 b2 b3), rest)
  | _ => .error .shortWord

/-- The words of a byte image (R43, spec/70_reset_and_hazards.md R151); bytes short of a word are refused (D13). -/
def wordsOfBytes : List Byte → Except ImageError (List Word)
  | [] => .ok []
  | b0 :: b1 :: b2 :: b3 :: rest =>
    match wordsOfBytes rest with
    | .ok ws => .ok (wordOfBytes b0 b1 b2 b3 :: ws)
    | .error e => .error e
  | _ => .error .shortWord

/-- What the decoder reads from an instruction whose bits, numbered as the table numbers them, are `w`. Every instruction
is one word (R60), so a row of more than 32 bits is no instruction of this machine. -/
def decodeTableWord (nbits w : Nat) : Option Instr :=
  if nbits ≤ 32 then some (decode (BitVec.ofNat 32 (w % 2 ^ nbits))) else none

end Sys2Proof
end

