-- ==== Sys2Proof/Machine/Engine.lean ====
section
/-! DEFINITION. The engine's step around an operation: fetch, decode, dispatch (spec/40_engine.md R80), in the status
Running only (R85). -/

namespace Sys2Proof.Machine

/-- One step, with `run` the dispatched operation. A terminal status absorbs: no step happens and no state changes
(R85, R89, D20). -/
def engineStep (run : Instr → State → Host.Outcome State Fault Refusal) (s : State) :
    Host.Outcome State Fault Refusal :=
  match s.status with
  | .halted => .next s
  | .fatal _ => .next s
  | .running =>
    match s.fetch with
    | none => .fault .programSegmentAbsent
    | some (.error k) => .next (s.raise k)
    | some (.ok w) => run (decode w) s

end Sys2Proof.Machine
end

