-- ==== Sys2Proof/Machine/Step.lean ====
section
/-! DEFINITION. The step of the machine (spec/40_engine.md R80), and placing an instruction for the next fetch. -/

namespace Sys2Proof.Machine

/-- One step (R80). -/
def step (s : State) : Host.Outcome State Fault Refusal := engineStep exec s

/-- `s` with the instruction of bits `w` (the bits above `nbits` zero) where `step` fetches next. -/
def State.withFetchWord (s : State) (nbits w : Nat) : State := s.placeWord (BitVec.ofNat 32 (w % 2 ^ nbits))

end Sys2Proof.Machine
end

