-- ==== Sys2Proof/Machine/Environment.lean ====
section
/-! DEFINITION. What the environment does to the core, between steps (spec/70_reset_and_hazards.md R154): supply the
program image at reset, deliver an input event, hold back or accept output, assert reset. It reaches no register, memory
word, pool entry or pc of a running machine (spec/00_scope.md R6). -/

namespace Sys2Proof.Machine

/-- The words of the largest image (R5, R151, D12). -/
def maxImageWords : Nat := 2 ^ 32 - 1

/-- The state after reset with a program image, the input events delivered so far, and CAP_WORDS (R37, R150). `none`: the
image is longer than any the environment may supply. -/
def State.boot (image : List Word) (input : List InEvent) (cap : Option Nat) : Option State :=
  if image.length ≤ maxImageWords then
    some { State.reset with seg := [(0, Segment.ofWords image)], input := input, capWords := cap }
  else none

/-- An action of the environment (R154). -/
inductive EnvAction where
  /-- The input stream produces its next event (R120). -/
  | deliver (e : InEvent)
  /-- The output sink becomes ready or busy (R119, D23). -/
  | sink (ready : Bool)
  /-- Reset, at any time, in any status, with the image then supplied (R150, D17). -/
  | restart (image : List Word)
deriving DecidableEq, Repr

/-- The state after an action of the environment. Reset discards the whole state and positions the input before its first
event (R37); the storage CAP_WORDS is the machine's own and stays. An image that is too long leaves the machine as it is. -/
def State.envAct (s : State) : EnvAction → State
  | .deliver e => { s with input := s.input ++ [e] }
  | .sink ready => { s with sinkReady := ready }
  | .restart image => (State.boot image [] s.capWords).getD s

end Sys2Proof.Machine
end

