-- ==== Sys2Proof/Safety.lean ====
section
/-! DEFINITION. The terms the claims use: the invariants of every reachable state (spec/10_state.md R30), the end of a run
(spec/70_reset_and_hazards.md R158), and which fatal condition a state leads to, listed in the spec's order of priority
(spec/60_exceptions.md R131, R142). -/

namespace Sys2Proof.Machine

/-- Identifier `id` is in the free pool (R28), as a number. -/
abbrev State.pooled (s : State) (id : Nat) : Prop := id ∈ s.free.map BitVec.toNat

/-- A segment stands under the number `id` (R25). -/
abbrev State.live (s : State) (id : Nat) : Prop := (Assoc.find id s.seg).isSome = true

/-- The invariants R30, and the canonical form of memory: segment 0 is mapped (1); 0 is not free (2); nothing is both mapped
and free (3); the identifiers issued are the gap-free range below `next_id` (4); every length is at most 2^32 - 1 (5, in
`Memory.wf`); the pool holds each identifier at most once (6). -/
abbrev State.Inv (s : State) : Prop :=
  Memory.wf s.seg = true ∧
  s.live 0 ∧
  ¬ s.pooled 0 ∧
  (∀ e ∈ s.seg, ¬ s.pooled e.1) ∧
  (∀ id, id < s.nextId → 1 ≤ id → s.live id ∨ s.pooled id) ∧
  s.free.Nodup

/-- The mapped words are within CAP_WORDS (R116). -/
abbrev State.withinCapacity (s : State) : Prop := s.fits s.totalWords = true

/-- The run has ended (R85, R158). -/
abbrev State.ended (s : State) : Prop := s.status ≠ .running

/-- The run ended by HALT (R31). -/
abbrev State.cleanExit (s : State) : Prop := s.status = .halted

/-- "The observable result of a run": the values emitted and the terminal status (R158). -/
def State.result (s : State) : List Byte × Status := (s.out, s.status)

/-- SLOAD's and SSTORE's checks (R133, R134). -/
def State.accessCondition (s : State) (id i : Word) : Option FatalKind :=
  match s.lenOf id with
  | none => some .unmappedSegment
  | some n => if n ≤ i.toNat then some .outOfBounds else none

/-- MAP cannot create a segment of `n` words: no storage, or no identifier (R116, R140). -/
def State.mapExhausted (s : State) (n : Nat) : Bool :=
  !s.capacity n || (s.free.isEmpty && decide (2 ^ 32 ≤ s.nextId))

/-- The fatal condition that holds for an instruction in a state, if any (R131 to R140). -/
def operationCondition (i : Instr) (s : State) : Option FatalKind :=
  match i with
  | .cmov _ _ _ => none
  | .sload _ b c => s.accessCondition (s.readReg b) (s.readReg c)
  | .sstore a b _ => s.accessCondition (s.readReg a) (s.readReg b)
  | .add _ _ _ => none
  | .mul _ _ _ => none
  | .div _ _ c => if s.readReg c = 0#32 then some .divideByZero else none
  | .nand _ _ _ => none
  | .halt => none
  | .map _ c => if s.mapExhausted (s.readReg c).toNat then some .resourceExhausted else none
  | .unmap c =>
    if s.readReg c = 0#32 then some .unmapSegmentZero
    else if s.mapped (s.readReg c) then none else some .unmappedSegment
  | .out c => if 255 < (s.readReg c).toNat then some .invalidOutput else none
  | .inp _ => if s.input.head? = some .failure then some .inputFailure else none
  | .loadp b _ =>
    match s.lenOf (s.readReg b) with
    | none => some .unmappedSegment
    | some n => if s.readReg b = 0#32 ∨ s.capacityForProgram n then none else some .resourceExhausted
  | .loadv _ _ => none
  | .invalid14 => some .invalidOpcode
  | .invalid15 => some .invalidOpcode

/-- The fatal condition of the next step, by priority: fetch, then dispatch and the operation (R142). -/
def State.fatalCondition (s : State) : Option FatalKind :=
  match s.wordAt 0#32 s.pc with
  | none => some .pcOutOfRange
  | some w => operationCondition (decode w) s

/-- The operation waits for the environment: IN for an event, OUT of a legal value for its sink (R88). -/
def waits (i : Instr) (s : State) : Bool :=
  match i with
  | .cmov _ _ _ => false
  | .sload _ _ _ => false
  | .sstore _ _ _ => false
  | .add _ _ _ => false
  | .mul _ _ _ => false
  | .div _ _ _ => false
  | .nand _ _ _ => false
  | .halt => false
  | .map _ _ => false
  | .unmap _ => false
  | .out c => decide ((s.readReg c).toNat ≤ 255) && !s.sinkReady
  | .inp _ => s.input.isEmpty
  | .loadp _ _ => false
  | .loadv _ _ => false
  | .invalid14 => false
  | .invalid15 => false

/-- The register an instruction may write (the last column of the table R22). -/
def destination : Instr → Option Reg
  | .cmov a _ _ => some a
  | .sload a _ _ => some a
  | .sstore _ _ _ => none
  | .add a _ _ => some a
  | .mul a _ _ => some a
  | .div a _ _ => some a
  | .nand a _ _ => some a
  | .halt => none
  | .map b _ => some b
  | .unmap _ => none
  | .out _ => none
  | .inp c => some c
  | .loadp _ _ => none
  | .loadv l _ => some l
  | .invalid14 => none
  | .invalid15 => none

/-- `s` with its status a fatal kind and nothing else changed: what the spec says every fatal condition leaves (R143). -/
def State.failed (s : State) (k : FatalKind) : State := { s with status := .fatal k }

/-! ### Frames: what stays as it was from `s` to `t` -/

/-- Every register. -/
def KeepsRegisters (s t : State) : Prop := ∀ r, t.readReg r = s.readReg r

/-- Every register but `d`. -/
def KeepsRegistersBut (d : Reg) (s t : State) : Prop := ∀ r, r ≠ d → t.readReg r = s.readReg r

/-- Every word of every segment, and which segments there are, with their lengths. -/
def KeepsMemory (s t : State) : Prop :=
  (∀ id i, t.wordAt id i = s.wordAt id i) ∧ (∀ id, t.lenOf id = s.lenOf id) ∧ t.seg = s.seg

/-- Every word and the length of every segment but the one under `id`. -/
def KeepsSegmentsBut (id : Word) (s t : State) : Prop :=
  ∀ j, j ≠ id → (∀ i, t.wordAt j i = s.wordAt j i) ∧ t.lenOf j = s.lenOf j

/-- The free pool and the count of reuses. -/
def KeepsPool (s t : State) : Prop := t.free = s.free ∧ t.reuses = s.reuses

/-- The two streams and the sink. -/
def KeepsStreams (s t : State) : Prop := t.input = s.input ∧ t.out = s.out ∧ t.sinkReady = s.sinkReady

/-- The status and the parameter CAP_WORDS. -/
def KeepsControl (s t : State) : Prop := t.status = s.status ∧ t.capWords = s.capWords

/-- Everything but register `d` and the pc. -/
def KeepsAllButRegister (d : Reg) (s t : State) : Prop :=
  KeepsRegistersBut d s t ∧ KeepsMemory s t ∧ KeepsPool s t ∧ KeepsStreams s t ∧ KeepsControl s t

/-! ### Words, by arithmetic on their numbers (spec/30_encoding.md R61) -/

/-- The word's OP is `op` and its register fields RA, RB, RC are `a`, `b`, `c`; its other bits are any. -/
def HasFields (w : Word) (op : Nat) (a b c : Reg) : Prop :=
  w.toNat / 2 ^ 28 = op ∧ w.toNat / 2 ^ 6 % 8 = a.val ∧ w.toNat / 2 ^ 3 % 8 = b.val ∧ w.toNat % 8 = c.val

end Sys2Proof.Machine
end

