-- ==== Sys2Proof/Certificates/Slice0/Obligations.lean ====
section
/-! DEFINITION. The statements for the provers, each from the numbered rules of spec/. -/

open Sys2Proof Sys2Proof.Machine

/-! ### Encoding -/

/-- Every well-formed instruction is read back from its word (R72). -/
def Obligations.DecodeOfEncodeIsIdentity : Prop :=
  ∀ i : Instr, i.WellFormed = true → decode (encode i) = i

/-- R72: the fields of an encoded word are the ones it was made of, the word is the sum R72 gives, and every word of the
three-register form has another word that decodes to the same instruction. -/
def Obligations.EncodedFieldsReadBack : Prop :=
  (∀ (op : Nat) (a b c : Reg), op < 16 →
    (encode3R op a b c).toNat = op * 2 ^ 28 + a.val * 2 ^ 6 + b.val * 2 ^ 3 + c.val ∧
    (decodeFields (encode3R op a b c)).op.toNat = op ∧
    (decodeFields (encode3R op a b c)).ra = a ∧
    (decodeFields (encode3R op a b c)).rb = b ∧
    (decodeFields (encode3R op a b c)).rc = c) ∧
  (∀ (l : Reg) (v : Word), v.toNat < 2 ^ 25 →
    (encodeLV l v).toNat = 13 * 2 ^ 28 + l.val * 2 ^ 25 + v.toNat ∧
    (decodeFields (encodeLV l v)).op.toNat = 13 ∧
    (decodeFields (encodeLV l v)).rl = l ∧
    (decodeFields (encodeLV l v)).vl.toNat = v.toNat) ∧
  (∀ w : Word, w.toNat / 2 ^ 28 ≤ 12 → ∃ w' : Word, w' ≠ w ∧ decode w' = decode w)

/-- R61, R62: each field by "(word >> lsb) & ((1 << width) - 1)" with the table's offset and width. -/
def Obligations.SixFieldsExtracted : Prop :=
  ∀ w : Word,
    (decodeFields w).op.toNat = (w.toNat >>> 28) &&& ((1 <<< 4) - 1) ∧
    (decodeFields w).ra.val = (w.toNat >>> 6) &&& ((1 <<< 3) - 1) ∧
    (decodeFields w).rb.val = (w.toNat >>> 3) &&& ((1 <<< 3) - 1) ∧
    (decodeFields w).rc.val = (w.toNat >>> 0) &&& ((1 <<< 3) - 1) ∧
    (decodeFields w).rl.val = (w.toNat >>> 25) &&& ((1 <<< 3) - 1) ∧
    (decodeFields w).vl.toNat = (w.toNat >>> 0) &&& ((1 <<< 25) - 1)

/-- R65: "match" and "mask" of the opcode map select the instruction, with the fields its row uses. -/
def Obligations.OpcodeMapSelectsInstruction : Prop :=
  ∀ w : Word,
    (w &&& 0xF0000000#32 = 0x00000000#32 → decode w = .cmov (decodeFields w).ra (decodeFields w).rb (decodeFields w).rc) ∧
    (w &&& 0xF0000000#32 = 0x10000000#32 → decode w = .sload (decodeFields w).ra (decodeFields w).rb (decodeFields w).rc) ∧
    (w &&& 0xF0000000#32 = 0x20000000#32 → decode w = .sstore (decodeFields w).ra (decodeFields w).rb (decodeFields w).rc) ∧
    (w &&& 0xF0000000#32 = 0x30000000#32 → decode w = .add (decodeFields w).ra (decodeFields w).rb (decodeFields w).rc) ∧
    (w &&& 0xF0000000#32 = 0x40000000#32 → decode w = .mul (decodeFields w).ra (decodeFields w).rb (decodeFields w).rc) ∧
    (w &&& 0xF0000000#32 = 0x50000000#32 → decode w = .div (decodeFields w).ra (decodeFields w).rb (decodeFields w).rc) ∧
    (w &&& 0xF0000000#32 = 0x60000000#32 → decode w = .nand (decodeFields w).ra (decodeFields w).rb (decodeFields w).rc) ∧
    (w &&& 0xF0000000#32 = 0x70000000#32 → decode w = .halt) ∧
    (w &&& 0xF0000000#32 = 0x80000000#32 → decode w = .map (decodeFields w).rb (decodeFields w).rc) ∧
    (w &&& 0xF0000000#32 = 0x90000000#32 → decode w = .unmap (decodeFields w).rc) ∧
    (w &&& 0xF0000000#32 = 0xA0000000#32 → decode w = .out (decodeFields w).rc) ∧
    (w &&& 0xF0000000#32 = 0xB0000000#32 → decode w = .inp (decodeFields w).rc) ∧
    (w &&& 0xF0000000#32 = 0xC0000000#32 → decode w = .loadp (decodeFields w).rb (decodeFields w).rc) ∧
    (w &&& 0xF0000000#32 = 0xD0000000#32 → decode w = .loadv (decodeFields w).rl ((decodeFields w).vl.setWidth 32)) ∧
    (w &&& 0xF0000000#32 = 0xE0000000#32 → decode w = .invalid14) ∧
    (w &&& 0xF0000000#32 = 0xF0000000#32 → decode w = .invalid15)

/-- R63: bits 27:9 of the three-register form are ignored, and so are the register fields an operation does not use. -/
def Obligations.IgnoredBitsTakeNoPart : Prop :=
  ∀ w w' : Word, w.toNat / 2 ^ 28 = w'.toNat / 2 ^ 28 →
    (w.toNat / 2 ^ 28 ≤ 12 → w.toNat % 2 ^ 9 = w'.toNat % 2 ^ 9 → decode w = decode w') ∧
    (w.toNat / 2 ^ 28 = 7 → decode w = decode w') ∧
    (w.toNat / 2 ^ 28 = 8 ∨ w.toNat / 2 ^ 28 = 12 → w.toNat % 2 ^ 6 = w'.toNat % 2 ^ 6 → decode w = decode w') ∧
    (9 ≤ w.toNat / 2 ^ 28 → w.toNat / 2 ^ 28 ≤ 11 → w.toNat % 2 ^ 3 = w'.toNat % 2 ^ 3 → decode w = decode w') ∧
    (14 ≤ w.toNat / 2 ^ 28 → decode w = decode w')

/-- The decoder yields well-formed instructions only (R66). -/
def Obligations.DecodedInstructionsAreWellFormed : Prop :=
  ∀ w : Word, (decode w).WellFormed = true

/-- Some words of the decoder vectors (spec/95_test_vectors.md section 2), read from the encoding R61. -/
def Obligations.SpecWordsDecode : Prop :=
  decode 0x00000000#32 = .cmov 0 0 0 ∧ decode 0x3FFFFE53#32 = .add 1 2 3 ∧ decode 0x12345678#32 = .sload 1 7 0 ∧
  decode 0x7ABCDEF0#32 = .halt ∧ decode 0x89ABCDEF#32 = .map 5 7 ∧ decode 0xA0000000#32 = .out 0 ∧
  decode 0xC000000A#32 = .loadp 1 2 ∧ decode 0xDFFFFFFF#32 = .loadv 7 0x1FFFFFF#32 ∧ decode 0xE0000000#32 = .invalid14

/-- R43: the image's words are big-endian, word `k` made of bytes `4k` to `4k+3`; a rest short of a word is refused, which is
the model's choice (notes/assumptions/11.md). -/
def Obligations.ByteImageIsBigEndian : Prop :=
  (∀ ws : List Word, wordsOfBytes (ws.flatMap bytesOfWord) = .ok ws) ∧
  (∀ bs : List Byte, bs.length % 4 ≠ 0 → wordsOfBytes bs = .error .shortWord) ∧
  (∀ (b0 b1 b2 b3 : Byte),
    (wordOfBytes b0 b1 b2 b3).toNat = b0.toNat * 2 ^ 24 + b1.toNat * 2 ^ 16 + b2.toNat * 2 ^ 8 + b3.toNat)

/-! ### The step -/

/-- R80 to R82: a running machine whose pc is inside segment 0 runs the instruction its word decodes to; nothing is done
around it, for each operation updates the pc itself. -/
def Obligations.StepRunsDecodedInstruction : Prop :=
  ∀ (s : State) (w : Word), s.status = .running → s.wordAt 0#32 s.pc = some w →
    (decode w).WellFormed = true ∧ step s = exec (decode w) s

/-- R49, R138: a fetch at or past the end of segment 0 is fatal and changes nothing else. -/
def Obligations.FetchPastEndIsFatal : Prop :=
  ∀ (s : State) (n : Nat), s.status = .running → s.lenOf 0#32 = some n → n ≤ s.pc.toNat →
    step s = .next (s.failed .pcOutOfRange)

/-- R85: after the run has ended no step changes anything. -/
def Obligations.EndedMachineStays : Prop :=
  ∀ s : State, s.ended → step s = .next s

/-- R67, R132: OP 14 and 15 raise InvalidOpcode, whatever the other bits, and change nothing else. -/
def Obligations.InvalidOpcodeIsFatal : Prop :=
  (∀ (s : State) (w : Word), s.status = .running → s.wordAt 0#32 s.pc = some w →
    (w.toNat / 2 ^ 28 = 14 ∨ w.toNat / 2 ^ 28 = 15) → step s = .next (s.failed .invalidOpcode)) ∧
  (∀ s : State, exec .invalid14 s = .next (s.failed .invalidOpcode) ∧
    exec .invalid15 s = .next (s.failed .invalidOpcode))

/-- R87: a step that raises a fatal condition changes the status and nothing else, but for the event an IN consumes. -/
def Obligations.FatalStepChangesOnlyStatus : Prop :=
  ∀ (s t : State) (k : FatalKind), s.status = .running → step s = .next t → t.status = .fatal k →
    t = s.failed k ∨
    (k = .inputFailure ∧ ∃ rest, s.input = .failure :: rest ∧ t = { s.failed k with input := rest })

/-- R131, R142: a step raises a fatal condition exactly when it is the first that holds in the spec's order. -/
def Obligations.FatalExactlyWhenConditionHolds : Prop :=
  ∀ (s : State) (k : FatalKind), s.Inv → s.status = .running →
    ((∃ t, step s = .next t ∧ t.status = .fatal k) ↔ s.fatalCondition = some k)

/-- R31, R131: the numbers of the status port, and no two statuses share one. -/
def Obligations.StatusPortNumbers : Prop :=
  Status.port .running = 0 ∧ Status.port .halted = 1 ∧ (∀ k, Status.port (.fatal k) = 16 + k.code) ∧
  FatalKind.code .invalidOpcode = 1 ∧ FatalKind.code .unmappedSegment = 2 ∧ FatalKind.code .outOfBounds = 3 ∧
  FatalKind.code .divideByZero = 4 ∧ FatalKind.code .invalidOutput = 5 ∧ FatalKind.code .inputFailure = 6 ∧
  FatalKind.code .pcOutOfRange = 7 ∧ FatalKind.code .unmapSegmentZero = 8 ∧ FatalKind.code .resourceExhausted = 9 ∧
  (∀ a b : Status, a.port = b.port → a = b)

/-- R84: the pc after an operation that does not wait. -/
def Obligations.PcUpdateRule : Prop :=
  ∀ (i : Instr) (s t : State), s.status = .running → waits i s = false → exec i s = .next t →
    ((∃ k, t.status = .fatal k) → t.pc = s.pc) ∧
    ((∀ k, t.status ≠ .fatal k) →
      (i = .halt → t.pc = s.pc) ∧
      (∀ b c, i = .loadp b c → t.pc = s.readReg c) ∧
      (i ≠ .halt → (∀ b c, i ≠ .loadp b c) → t.pc.toNat = (s.pc.toNat + 1) % 2 ^ 32))

/-- R24: the increment never wraps: where a fetch succeeds, the next index is still a 32-bit number. -/
def Obligations.IncrementNeverWraps : Prop :=
  ∀ (s : State) (w : Word), s.Inv → s.wordAt 0#32 s.pc = some w → s.pc.toNat + 1 < 2 ^ 32

/-- R21: a register holds whatever was last written, register 0 included, and a write reaches no other. -/
def Obligations.RegistersHoldWhatIsWritten : Prop :=
  ∀ (s : State) (r q : Reg) (v : Word), (s.writeReg r v).readReg q = if q = r then v else s.readReg q

/-- R22, the column of writes: an operation changes no register but its destination, and none when it is fatal. -/
def Obligations.OnlyDestinationIsWritten : Prop :=
  ∀ (i : Instr) (s t : State), s.status = .running → exec i s = .next t →
    (∀ r, some r ≠ destination i → t.readReg r = s.readReg r) ∧
    (∀ k, t.status = .fatal k → KeepsRegisters s t)

/-! ### Memory -/

/-- R41: exactly the words below the length of a mapped segment are addressable. -/
def Obligations.AddressableWords : Prop :=
  ∀ (s : State) (id i : Word), (∃ v, s.wordAt id i = some v) ↔ ∃ n, s.lenOf id = some n ∧ i.toNat < n

/-- R46 to R48: the two checks in order; a read gives the word; a write replaces that word whole and no other, and reading it
back gives what was written. -/
def Obligations.MemoryAccessChecksAndEffect : Prop :=
  ∀ (s : State) (id i : Word),
    (s.mapped id = false → s.memRead id i = .error .unmappedSegment ∧
      ∀ v, s.memWrite id i v = .error .unmappedSegment) ∧
    (∀ n, s.lenOf id = some n → n ≤ i.toNat → s.memRead id i = .error .outOfBounds ∧
      ∀ v, s.memWrite id i v = .error .outOfBounds) ∧
    (∀ n, s.lenOf id = some n → i.toNat < n →
      (∃ v, s.wordAt id i = some v ∧ s.memRead id i = .ok v) ∧
      ∀ v, ∃ t, s.memWrite id i v = .ok t ∧ t.memRead id i = .ok v ∧
        (∀ j k, (j, k) ≠ (id, i) → t.wordAt j k = s.wordAt j k) ∧ (∀ j, t.lenOf j = s.lenOf j))

/-- The canonical form is canonical: two memories in it with the same segments, lengths and words are the same data
(R25; the form is the model's, notes/assumptions/1.md). -/
def Obligations.CanonicalMemoryIsDetermined : Prop :=
  ∀ s t : State, Memory.wf s.seg = true → Memory.wf t.seg = true →
    (∀ id, s.lenOf id = t.lenOf id) → (∀ id i, s.wordAt id i = t.wordAt id i) → s.seg = t.seg

/-! ### CMOV, SLOAD, SSTORE -/

/-- R100. -/
def Obligations.CmovMovesWhenNonzero : Prop :=
  ∀ (a b c : Reg) (s : State),
    (∀ w, HasFields w 0 a b c → decode w = .cmov a b c) ∧
    (encode (.cmov a b c)).toNat = 0x00000000 + a.val * 64 + b.val * 8 + c.val ∧
    ∃ t, exec (.cmov a b c) s = .next t ∧
      (s.readReg c ≠ 0#32 → t.readReg a = s.readReg b) ∧
      (s.readReg c = 0#32 → t.readReg a = s.readReg a) ∧
      t.pc = s.pc + 1#32 ∧ KeepsAllButRegister a s t

/-- R101. -/
def Obligations.SloadReadsSegmentWord : Prop :=
  ∀ (a b c : Reg) (s : State),
    (∀ w, HasFields w 1 a b c → decode w = .sload a b c) ∧
    (encode (.sload a b c)).toNat = 0x10000000 + a.val * 64 + b.val * 8 + c.val ∧
    (s.lenOf (s.readReg b) = none → exec (.sload a b c) s = .next (s.failed .unmappedSegment)) ∧
    (∀ n, s.lenOf (s.readReg b) = some n → n ≤ (s.readReg c).toNat →
      exec (.sload a b c) s = .next (s.failed .outOfBounds)) ∧
    (∀ n, s.lenOf (s.readReg b) = some n → (s.readReg c).toNat < n →
      ∃ t, exec (.sload a b c) s = .next t ∧
        some (t.readReg a) = s.wordAt (s.readReg b) (s.readReg c) ∧
        t.pc = s.pc + 1#32 ∧ KeepsAllButRegister a s t)

/-- R102. -/
def Obligations.SstoreWritesSegmentWord : Prop :=
  ∀ (a b c : Reg) (s : State),
    (∀ w, HasFields w 2 a b c → decode w = .sstore a b c) ∧
    (encode (.sstore a b c)).toNat = 0x20000000 + a.val * 64 + b.val * 8 + c.val ∧
    (s.lenOf (s.readReg a) = none → exec (.sstore a b c) s = .next (s.failed .unmappedSegment)) ∧
    (∀ n, s.lenOf (s.readReg a) = some n → n ≤ (s.readReg b).toNat →
      exec (.sstore a b c) s = .next (s.failed .outOfBounds)) ∧
    (∀ n, s.lenOf (s.readReg a) = some n → (s.readReg b).toNat < n →
      ∃ t, exec (.sstore a b c) s = .next t ∧
        t.wordAt (s.readReg a) (s.readReg b) = some (s.readReg c) ∧
        (∀ id i, (id, i) ≠ (s.readReg a, s.readReg b) → t.wordAt id i = s.wordAt id i) ∧
        (∀ id, t.lenOf id = s.lenOf id) ∧
        t.pc = s.pc + 1#32 ∧ KeepsRegisters s t ∧ KeepsPool s t ∧ KeepsStreams s t ∧ KeepsControl s t)

/-! ### ADD, MUL, DIV, NAND -/

/-- R103. -/
def Obligations.AddWrapsModulo : Prop :=
  ∀ (a b c : Reg) (s : State),
    (∀ w, HasFields w 3 a b c → decode w = .add a b c) ∧
    (encode (.add a b c)).toNat = 0x30000000 + a.val * 64 + b.val * 8 + c.val ∧
    ∃ t, exec (.add a b c) s = .next t ∧
      (t.readReg a).toNat = ((s.readReg b).toNat + (s.readReg c).toNat) % 2 ^ 32 ∧
      t.pc = s.pc + 1#32 ∧ KeepsAllButRegister a s t

/-- R104. -/
def Obligations.MulKeepsLowWord : Prop :=
  ∀ (a b c : Reg) (s : State),
    (∀ w, HasFields w 4 a b c → decode w = .mul a b c) ∧
    (encode (.mul a b c)).toNat = 0x40000000 + a.val * 64 + b.val * 8 + c.val ∧
    ∃ t, exec (.mul a b c) s = .next t ∧
      (t.readReg a).toNat = ((s.readReg b).toNat * (s.readReg c).toNat) % 2 ^ 32 ∧
      t.pc = s.pc + 1#32 ∧ KeepsAllButRegister a s t

/-- R105. -/
def Obligations.DivTruncatesOrFails : Prop :=
  ∀ (a b c : Reg) (s : State),
    (∀ w, HasFields w 5 a b c → decode w = .div a b c) ∧
    (encode (.div a b c)).toNat = 0x50000000 + a.val * 64 + b.val * 8 + c.val ∧
    (s.readReg c = 0#32 → exec (.div a b c) s = .next (s.failed .divideByZero)) ∧
    (s.readReg c ≠ 0#32 → ∃ t, exec (.div a b c) s = .next t ∧
      (t.readReg a).toNat = (s.readReg b).toNat / (s.readReg c).toNat ∧
      t.pc = s.pc + 1#32 ∧ KeepsAllButRegister a s t)

/-- R106. -/
def Obligations.NandComplementsAnd : Prop :=
  ∀ (a b c : Reg) (s : State),
    (∀ w, HasFields w 6 a b c → decode w = .nand a b c) ∧
    (encode (.nand a b c)).toNat = 0x60000000 + a.val * 64 + b.val * 8 + c.val ∧
    ∃ t, exec (.nand a b c) s = .next t ∧
      (∀ j, j < 32 → ((t.readReg a).getLsbD j = true ↔
        ¬ ((s.readReg b).getLsbD j = true ∧ (s.readReg c).getLsbD j = true))) ∧
      t.pc = s.pc + 1#32 ∧ KeepsAllButRegister a s t

/-- R108: the order of the two sources does not matter, the results wrap, and the ring laws hold. -/
def Obligations.AddAndMulCommute : Prop :=
  (∀ (a b c : Reg) (s : State),
    exec (.add a b c) s = exec (.add a c b) s ∧ exec (.mul a b c) s = exec (.mul a c b) s) ∧
  (∀ b c d : Word,
    (sumWord b c).toNat = (b.toNat + c.toNat) % 2 ^ 32 ∧ (productWord b c).toNat = (b.toNat * c.toNat) % 2 ^ 32 ∧
    sumWord b c = sumWord c b ∧ productWord b c = productWord c b ∧
    sumWord (sumWord b c) d = sumWord b (sumWord c d) ∧
    productWord (productWord b c) d = productWord b (productWord c d) ∧
    productWord b (sumWord c d) = sumWord (productWord b c) (productWord b d))

/-- R109: division at every combination of operands. -/
def Obligations.DivisionAtEveryCombination : Prop :=
  ∀ (a b c : Reg) (s : State),
    (s.readReg c = 0#32 → exec (.div a b c) s = .next (s.failed .divideByZero)) ∧
    (s.readReg c ≠ 0#32 → ∃ t, exec (.div a b c) s = .next t ∧
      (s.readReg b = 0#32 → t.readReg a = 0#32) ∧
      ((s.readReg b).toNat < (s.readReg c).toNat → t.readReg a = 0#32) ∧
      ((s.readReg c).toNat ≤ (s.readReg b).toNat →
        1 ≤ (t.readReg a).toNat ∧ (t.readReg a).toNat ≤ (s.readReg b).toNat ∧
        (t.readReg a).toNat * (s.readReg c).toNat ≤ (s.readReg b).toNat ∧
        (s.readReg b).toNat < ((t.readReg a).toNat + 1) * (s.readReg c).toNat) ∧
      (s.readReg b = 0xFFFFFFFF#32 → s.readReg c = 1#32 → t.readReg a = 0xFFFFFFFF#32) ∧
      (s.readReg b = 0xFFFFFFFF#32 → s.readReg c = 0xFFFFFFFF#32 → t.readReg a = 1#32) ∧
      (s.readReg b = 0x80000000#32 → s.readReg c = 0xFFFFFFFF#32 → t.readReg a = 0#32))

/-! ### HALT -/

/-- R110. -/
def Obligations.HaltEndsTheRun : Prop :=
  (∀ w : Word, w.toNat / 2 ^ 28 = 7 → decode w = .halt) ∧ encode .halt = 0x70000000#32 ∧
  ∀ s : State, ∃ t, exec .halt s = .next t ∧ t.cleanExit ∧ t.pc = s.pc ∧ KeepsRegisters s t ∧ KeepsMemory s t ∧
    KeepsPool s t ∧ KeepsStreams s t ∧ t.capWords = s.capWords ∧ step t = .next t

/-! ### MAP, UNMAP -/

/-- R111, in the states the invariants R30 allow. -/
def Obligations.MapCreatesZeroSegment : Prop :=
  ∀ (b c : Reg),
    (∀ (w : Word) (a : Reg), HasFields w 8 a b c → decode w = .map b c) ∧
    (encode (.map b c)).toNat = 0x80000000 + b.val * 8 + c.val ∧
    ∀ s : State, s.Inv →
      (s.mapExhausted (s.readReg c).toNat = true → exec (.map b c) s = .next (s.failed .resourceExhausted)) ∧
      (s.mapExhausted (s.readReg c).toNat = false →
        ∃ t id, exec (.map b c) s = .next t ∧ t.readReg b = id ∧ id ≠ 0#32 ∧ s.mapped id = false ∧
          t.lenOf id = some (s.readReg c).toNat ∧
          (∀ i : Word, i.toNat < (s.readReg c).toNat → t.wordAt id i = some 0#32) ∧
          id ∉ t.free ∧ KeepsSegmentsBut id s t ∧ KeepsRegistersBut b s t ∧ t.pc = s.pc + 1#32 ∧
          KeepsStreams s t ∧ KeepsControl s t)

/-- R113: a free identifier is reused first, a fresh one is `next_id`, nothing else is issued and never identifier 0 (which a
pool that meets R30 does not hold); the segment created is of zero words. -/
def Obligations.AllocatorReusesBeforeFresh : Prop :=
  ∀ (b c : Reg) (s : State),
    (s.capacity (s.readReg c).toNat = false → exec (.map b c) s = .next (s.failed .resourceExhausted)) ∧
    (s.capacity (s.readReg c).toNat = true → s.free ≠ [] →
      ∃ t, exec (.map b c) s = .next t ∧ t.readReg b ∈ s.free ∧
        (0#32 ∉ s.free → t.readReg b ≠ 0#32) ∧
        (∀ z, z ∈ t.free ↔ z ∈ s.free ∧ z ≠ t.readReg b) ∧
        t.lenOf (t.readReg b) = some (s.readReg c).toNat ∧
        ∀ i : Word, i.toNat < (s.readReg c).toNat → t.wordAt (t.readReg b) i = some 0#32) ∧
    (s.capacity (s.readReg c).toNat = true → s.free = [] → s.nextId = 2 ^ 32 →
      exec (.map b c) s = .next (s.failed .resourceExhausted)) ∧
    (s.capacity (s.readReg c).toNat = true → s.free = [] → s.nextId < 2 ^ 32 →
      ∃ t, exec (.map b c) s = .next t ∧ (t.readReg b).toNat = s.nextId ∧ t.readReg b ≠ 0#32 ∧ t.free = [] ∧
        t.lenOf (t.readReg b) = some (s.readReg c).toNat ∧
        ∀ i : Word, i.toNat < (s.readReg c).toNat → t.wordAt (t.readReg b) i = some 0#32)

/-- R114: when the pool has exactly one member every policy returns that member. -/
def Obligations.OnlyFreeIdentifierIsReused : Prop :=
  ∀ (b c : Reg) (s : State) (id : Word), s.free = [id] → s.capacity (s.readReg c).toNat = true →
    ∃ t, exec (.map b c) s = .next t ∧ t.readReg b = id ∧ t.free = []

/-- R116: a finite CAP_WORDS bounds the mapped words, in every state a step can reach from one within the bound. -/
def Obligations.StepStaysWithinCapacity : Prop :=
  ∀ s t : State, s.Inv → s.withinCapacity → step s = .next t → t.withinCapacity

/-- R112. -/
def Obligations.UnmapReclaimsSegment : Prop :=
  ∀ (c : Reg),
    (∀ (w : Word) (a b : Reg), HasFields w 9 a b c → decode w = .unmap c) ∧
    (encode (.unmap c)).toNat = 0x90000000 + c.val ∧
    ∀ s : State,
      (s.readReg c = 0#32 → exec (.unmap c) s = .next (s.failed .unmapSegmentZero)) ∧
      (s.readReg c ≠ 0#32 → s.mapped (s.readReg c) = false → exec (.unmap c) s = .next (s.failed .unmappedSegment)) ∧
      (s.readReg c ≠ 0#32 → s.mapped (s.readReg c) = true →
        ∃ t, exec (.unmap c) s = .next t ∧ t.mapped (s.readReg c) = false ∧
          (∀ i, t.wordAt (s.readReg c) i = none) ∧
          (∀ z, z ∈ t.free ↔ z ∈ s.free ∨ z = s.readReg c) ∧
          KeepsSegmentsBut (s.readReg c) s t ∧ KeepsRegisters s t ∧ t.pc = s.pc + 1#32 ∧
          KeepsStreams s t ∧ KeepsControl s t ∧ t.reuses = s.reuses)

/-- R56, R133: after UNMAP, every use of the stale identifier is fatal. -/
def Obligations.StaleIdentifierIsFatal : Prop :=
  ∀ (c : Reg) (s : State), s.readReg c ≠ 0#32 → s.mapped (s.readReg c) = true →
    ∃ t, exec (.unmap c) s = .next t ∧
      ∀ a q r : Reg, t.readReg q = s.readReg c →
        exec (.sload a q r) t = .next (t.failed .unmappedSegment) ∧
        exec (.sstore q a r) t = .next (t.failed .unmappedSegment) ∧
        exec (.unmap q) t = .next (t.failed .unmappedSegment) ∧
        exec (.loadp q r) t = .next (t.failed .unmappedSegment)

/-- R114, R56: from an empty pool, MAP after UNMAP returns the same identifier, and the new segment is all zero whatever the
old one held. -/
def Obligations.MapAfterUnmapIsFresh : Prop :=
  ∀ (b c d : Reg) (s : State), s.free = [] → s.readReg c ≠ 0#32 → s.mapped (s.readReg c) = true →
    ∃ t, exec (.unmap c) s = .next t ∧
      (t.capacity (s.readReg d).toNat = true →
        ∃ u, exec (.map b d) t = .next u ∧ u.readReg b = s.readReg c ∧ u.free = [] ∧
          u.lenOf (s.readReg c) = some (s.readReg d).toNat ∧
          ∀ i : Word, i.toNat < (s.readReg d).toNat → u.wordAt (s.readReg c) i = some 0#32)

/-! ### OUT, IN -/

/-- R117, with the sink ready. -/
def Obligations.OutEmitsOneValue : Prop :=
  ∀ (c : Reg),
    (∀ (w : Word) (a b : Reg), HasFields w 10 a b c → decode w = .out c) ∧
    (encode (.out c)).toNat = 0xA0000000 + c.val ∧
    ∀ s : State,
      (255 < (s.readReg c).toNat → exec (.out c) s = .next (s.failed .invalidOutput)) ∧
      ((s.readReg c).toNat ≤ 255 → s.sinkReady = true →
        ∃ (t : State) (v : Byte), exec (.out c) s = .next t ∧ v.toNat = (s.readReg c).toNat ∧ t.out = s.out ++ [v] ∧
          t.pc = s.pc + 1#32 ∧ KeepsRegisters s t ∧ KeepsMemory s t ∧ KeepsPool s t ∧ KeepsControl s t ∧
          t.input = s.input ∧ t.sinkReady = s.sinkReady)

/-- R118: one event per IN. The wait where none has come is, as a step that changes nothing, the model's choice
(notes/assumptions/4.md). -/
def Obligations.InReceivesOneEvent : Prop :=
  ∀ (c : Reg),
    (∀ (w : Word) (a b : Reg), HasFields w 11 a b c → decode w = .inp c) ∧
    (encode (.inp c)).toNat = 0xB0000000 + c.val ∧
    ∀ (s : State) (rest : List InEvent),
      (s.input = [] → exec (.inp c) s = .next s) ∧
      (∀ v, s.input = .byte v :: rest →
        ∃ t, exec (.inp c) s = .next t ∧ (t.readReg c).toNat = v.toNat ∧ t.input = rest ∧ t.pc = s.pc + 1#32 ∧
          KeepsRegistersBut c s t ∧ KeepsMemory s t ∧ KeepsPool s t ∧ KeepsControl s t ∧
          t.out = s.out ∧ t.sinkReady = s.sinkReady) ∧
      (s.input = .eof :: rest →
        ∃ t, exec (.inp c) s = .next t ∧ t.readReg c = 0xFFFFFFFF#32 ∧ t.input = rest ∧ t.pc = s.pc + 1#32 ∧
          KeepsRegistersBut c s t ∧ KeepsMemory s t ∧ KeepsPool s t ∧ KeepsControl s t ∧
          t.out = s.out ∧ t.sinkReady = s.sinkReady) ∧
      (s.input = .failure :: rest → exec (.inp c) s = .next { s.failed .inputFailure with input := rest })

/-- R88, R156: an IN without an event and an OUT whose sink is busy change nothing, and complete with exactly their own
effect once the environment answers. -/
def Obligations.WaitsChangeNothing : Prop :=
  ∀ (c : Reg) (s : State),
    (s.input = [] → exec (.inp c) s = .next s ∧
      ∀ v, ∃ t, exec (.inp c) (s.envAct (.deliver (.byte v))) = .next t ∧ (t.readReg c).toNat = v.toNat ∧
        t.input = [] ∧ t.pc = s.pc + 1#32 ∧ KeepsRegistersBut c s t ∧ KeepsMemory s t) ∧
    ((s.readReg c).toNat ≤ 255 → s.sinkReady = false → exec (.out c) s = .next s ∧
      ∃ (t : State) (v : Byte), exec (.out c) (s.envAct (.sink true)) = .next t ∧ v.toNat = (s.readReg c).toNat ∧
        t.out = s.out ++ [v] ∧ t.pc = s.pc + 1#32 ∧ KeepsRegisters s t ∧ KeepsMemory s t)

/-- R119, R120: the output grows by OUT alone, one value at a time, and only IN consumes an event, exactly one. -/
def Obligations.StreamsMoveOnlyByOutAndIn : Prop :=
  ∀ (i : Instr) (s t : State), exec i s = .next t →
    (t.out = s.out ∨ ∃ (c : Reg) (v : Byte), i = .out c ∧ v.toNat = (s.readReg c).toNat ∧ t.out = s.out ++ [v]) ∧
    (t.input = s.input ∨ ∃ (c : Reg) (e : InEvent), i = .inp c ∧ s.input = e :: t.input) ∧
    t.sinkReady = s.sinkReady

/-- R120: the core never looks ahead: events that come after the next one do not change a step. -/
def Obligations.StepNeverLooksAhead : Prop :=
  ∀ (s t : State) (later : List InEvent), s.input ≠ [] → step s = .next t →
    step { s with input := s.input ++ later } = .next { t with input := t.input ++ later }

/-- R119: the core never reads its output: another output so far changes nothing but that output. -/
def Obligations.StepNeverReadsOutput : Prop :=
  ∀ (s t : State) (other : List Byte), step s = .next t →
    ∃ emitted, t.out = s.out ++ emitted ∧
      step { s with out := other } = .next { t with out := other ++ emitted }

/-! ### LOADP, LOADV -/

/-- R122. -/
def Obligations.LoadpReplacesProgram : Prop :=
  ∀ (b c : Reg),
    (∀ (w : Word) (a : Reg), HasFields w 12 a b c → decode w = .loadp b c) ∧
    (encode (.loadp b c)).toNat = 0xC0000000 + b.val * 8 + c.val ∧
    ∀ s : State,
      (s.lenOf (s.readReg b) = none → exec (.loadp b c) s = .next (s.failed .unmappedSegment)) ∧
      (∀ n, s.lenOf (s.readReg b) = some n → s.readReg b = 0#32 →
        ∃ t, exec (.loadp b c) s = .next t ∧ t.pc = s.readReg c ∧ KeepsRegisters s t ∧ KeepsMemory s t ∧
          KeepsPool s t ∧ KeepsStreams s t ∧ KeepsControl s t) ∧
      (∀ n, s.lenOf (s.readReg b) = some n → s.readReg b ≠ 0#32 → s.capacityForProgram n = false →
        exec (.loadp b c) s = .next (s.failed .resourceExhausted)) ∧
      (∀ n, s.lenOf (s.readReg b) = some n → s.readReg b ≠ 0#32 → s.capacityForProgram n = true →
        ∃ t, exec (.loadp b c) s = .next t ∧ t.pc = s.readReg c ∧ t.lenOf 0#32 = some n ∧
          (∀ i, t.wordAt 0#32 i = s.wordAt (s.readReg b) i) ∧
          KeepsSegmentsBut 0#32 s t ∧ KeepsRegisters s t ∧ KeepsPool s t ∧ KeepsStreams s t ∧ KeepsControl s t)

/-- R57: after LOADP the program and the segment it came from share nothing. -/
def Obligations.LoadedCopySharesNothing : Prop :=
  ∀ (b c : Reg) (s : State) (n : Nat), s.lenOf (s.readReg b) = some n → s.readReg b ≠ 0#32 →
    s.capacityForProgram n = true →
    ∃ t, exec (.loadp b c) s = .next t ∧ t.lenOf (s.readReg b) = some n ∧
      (∀ i, t.wordAt (s.readReg b) i = s.wordAt (s.readReg b) i) ∧
      (∀ i v u, t.memWrite 0#32 i v = .ok u → ∀ j, u.wordAt (s.readReg b) j = t.wordAt (s.readReg b) j) ∧
      (∀ i v u, t.memWrite (s.readReg b) i v = .ok u → ∀ j, u.wordAt 0#32 j = t.wordAt 0#32 j)

/-- R54, R122: the step after LOADP fetches from the new segment 0 at exactly the target, and a target past its end makes that
step fatal. -/
def Obligations.LoadedProgramIsFetchedNext : Prop :=
  ∀ (b c : Reg) (s : State) (n : Nat), s.status = .running → s.lenOf (s.readReg b) = some n →
    (s.readReg b = 0#32 ∨ s.capacityForProgram n = true) →
    ∃ t, exec (.loadp b c) s = .next t ∧
      (∀ w, s.wordAt (s.readReg b) (s.readReg c) = some w → step t = exec (decode w) t) ∧
      (n ≤ (s.readReg c).toNat → step t = .next (t.failed .pcOutOfRange))

/-- R54: the very next fetch sees a store into segment 0, at the next instruction too. -/
def Obligations.FetchSeesTheStore : Prop :=
  ∀ (a b c : Reg) (s : State) (n : Nat), s.status = .running → s.readReg a = 0#32 → s.lenOf 0#32 = some n →
    (s.readReg b).toNat < n →
    ∃ t, exec (.sstore a b c) s = .next t ∧ t.wordAt 0#32 (s.readReg b) = some (s.readReg c) ∧
      (s.readReg b = s.pc + 1#32 → step t = exec (decode (s.readReg c)) t)

/-- R123; an immediate that fits is written as it is. -/
def Obligations.LoadvLoadsImmediate : Prop :=
  ∀ (l : Reg) (v : Word) (s : State), v.toNat < 2 ^ 25 →
    (∀ w : Word, w.toNat / 2 ^ 28 = 13 → w.toNat / 2 ^ 25 % 8 = l.val → w.toNat % 2 ^ 25 = v.toNat →
      decode w = .loadv l v) ∧
    (encode (.loadv l v)).toNat = 0xD0000000 + l.val * 2 ^ 25 + v.toNat ∧
    ∃ t, exec (.loadv l v) s = .next t ∧ t.readReg l = v ∧ t.pc = s.pc + 1#32 ∧ KeepsAllButRegister l s t

/-! ### Rules of the whole machine -/

/-- R30: every step keeps the invariants. -/
def Obligations.StepKeepsInvariant : Prop :=
  ∀ s t : State, s.Inv → step s = .next t → t.Inv

/-- R30 at the reset state. -/
def Obligations.ResetMeetsInvariant : Prop :=
  State.reset.Inv ∧ State.reset.withinCapacity

/-- R30 after a reset with any image the environment may supply, and after every action of the environment. -/
def Obligations.EnvironmentKeepsInvariant : Prop :=
  (∀ (image : List Word) (input : List InEvent) (cap : Option Nat) (s : State),
    State.boot image input cap = some s → s.Inv) ∧
  (∀ (s : State) (e : EnvAction), s.Inv → (s.envAct e).Inv)

/-- R37: the state after reset with an image. -/
def Obligations.BootGivesResetState : Prop :=
  ∀ (image : List Word) (input : List InEvent) (cap : Option Nat), image.length ≤ 2 ^ 32 - 1 →
    ∃ s, State.boot image input cap = some s ∧
      (∀ r, s.readReg r = 0#32) ∧ s.pc = 0#32 ∧ s.lenOf 0#32 = some image.length ∧
      (∀ i : Word, s.wordAt 0#32 i = image[i.toNat]?) ∧
      (∀ id, id ≠ 0#32 → s.lenOf id = none) ∧ s.free = [] ∧ s.nextId = 1 ∧ s.status = .running ∧
      s.out = [] ∧ s.input = input

/-- R6, R154: the environment's events reach no register, pc, memory word, pool entry, status or output of the machine. -/
def Obligations.EnvironmentReachesNoCoreState : Prop :=
  (∀ (s : State) (e : InEvent), s.envAct (.deliver e) = { s with input := s.input ++ [e] }) ∧
  (∀ (s : State) (ready : Bool), s.envAct (.sink ready) = { s with sinkReady := ready }) ∧
  (∀ (s : State) (image : List Word), image.length ≤ 2 ^ 32 - 1 →
    State.boot image [] s.capWords = some (s.envAct (.restart image)))

/-- In a state that meets the invariants every step has a next state: the model neither faults nor refuses (R26, R85). -/
def Obligations.InvariantStateAlwaysSteps : Prop :=
  ∀ s : State, s.Inv → ∃ t, step s = .next t

/-- R25: no step changes the length of a segment that lives on, but LOADP that of segment 0. -/
def Obligations.SegmentLengthsAreFixed : Prop :=
  ∀ (i : Instr) (s t : State), s.Inv → exec i s = .next t →
    (∀ (id : Word) (n m : Nat), id ≠ 0#32 → s.lenOf id = some n → t.lenOf id = some m → m = n) ∧
    (t.lenOf 0#32 ≠ s.lenOf 0#32 → ∃ b c, i = .loadp b c)

/-- R56: while a segment lives its words change only by SSTORE to them, and those of segment 0 also by LOADP. -/
def Obligations.OnlyStoreChangesWords : Prop :=
  ∀ (i : Instr) (s t : State) (id k v w : Word), s.Inv → exec i s = .next t →
    s.wordAt id k = some v → t.wordAt id k = some w → w ≠ v →
    (∃ a b c, i = .sstore a b c ∧ s.readReg a = id ∧ s.readReg b = k ∧ s.readReg c = w) ∨
    (id = 0#32 ∧ ∃ b c, i = .loadp b c)

/-- R115: only UNMAP puts an identifier into the pool, the one it reclaims, and only MAP takes one out, the one it issues. -/
def Obligations.PoolChangesOnlyByMapAndUnmap : Prop :=
  ∀ (i : Instr) (s t : State) (z : Word), exec i s = .next t →
    (z ∈ t.free → z ∉ s.free → ∃ c, i = .unmap c ∧ s.readReg c = z ∧ s.mapped z = true) ∧
    (z ∈ s.free → z ∉ t.free → ∃ b c, i = .map b c ∧ t.readReg b = z)

/-- R26, R50: segment 0 is mapped before and after every step, and UNMAP never removes it. -/
def Obligations.ProgramSegmentStaysMapped : Prop :=
  ∀ (i : Instr) (s t : State), s.mapped 0#32 = true → 0#32 ∉ s.free → exec i s = .next t →
    t.mapped 0#32 = true ∧ 0#32 ∉ t.free
end

