-- ==== Sys2Proof/Laws/Assoc.lean ====
section
/-! SUPPORT. The laws of the sparse lists: what a look-up gives after `put` and `drop`, that both keep the canonical order,
and that the order makes a list with the same entries the same list. -/

namespace Sys2Proof.Machine

variable {α : Type}

@[simp] theorem Assoc.find_put_same (k : Nat) (v : α) (l : List (Nat × α)) :
    Assoc.find k (Assoc.put k v l) = some v := by
  induction l with
  | nil => simp [Assoc.put, Assoc.find]
  | cons e rest ih =>
    obtain ⟨j, w⟩ := e
    by_cases h : k < j
    · simp [Assoc.put, Assoc.find, h]
    · by_cases h' : k = j <;> simp [Assoc.put, Assoc.find, h, h', ih]

theorem Assoc.find_put_other {k j : Nat} (h : j ≠ k) (v : α) (l : List (Nat × α)) :
    Assoc.find j (Assoc.put k v l) = Assoc.find j l := by
  induction l with
  | nil => simp [Assoc.put, Assoc.find, h]
  | cons e rest ih =>
    obtain ⟨i, w⟩ := e
    by_cases h1 : k < i
    · simp [Assoc.put, Assoc.find, h1, h]
    · by_cases h2 : k = i
      · subst h2; simp [Assoc.put, Assoc.find, h]
      · simp [Assoc.put, Assoc.find, h1, h2, ih]

@[simp] theorem Assoc.find_drop_same (k : Nat) (l : List (Nat × α)) : Assoc.find k (Assoc.drop k l) = none := by
  induction l with
  | nil => rfl
  | cons e rest ih =>
    obtain ⟨j, w⟩ := e
    by_cases h : j = k
    · simpa [Assoc.drop, h] using ih
    · have h' : ¬ k = j := fun x => h x.symm
      simpa [Assoc.drop, Assoc.find, h, h'] using ih

theorem Assoc.find_drop_other {k j : Nat} (h : j ≠ k) (l : List (Nat × α)) :
    Assoc.find j (Assoc.drop k l) = Assoc.find j l := by
  induction l with
  | nil => rfl
  | cons e rest ih =>
    obtain ⟨i, w⟩ := e
    by_cases h1 : i = k
    · have h2 : ¬ j = i := fun x => h (x.trans h1)
      simpa [Assoc.drop, Assoc.find, h1, h2, h] using ih
    · by_cases h2 : j = i
      · simp [Assoc.drop, Assoc.find, h1, h2]
      · simpa [Assoc.drop, Assoc.find, h1, h2] using ih

/-- An entry that a look-up gives stands in the list. -/
theorem Assoc.mem_of_find {k : Nat} {v : α} {l : List (Nat × α)} (h : Assoc.find k l = some v) : (k, v) ∈ l := by
  induction l with
  | nil => simp [Assoc.find] at h
  | cons e rest ih =>
    obtain ⟨j, w⟩ := e
    by_cases hk : k = j
    · simp [Assoc.find, hk] at h; simp [hk, h]
    · simp [Assoc.find, hk] at h; exact List.mem_cons_of_mem _ (ih h)

/-- A key with an entry is found. -/
theorem Assoc.find_isSome_of_mem {e : Nat × α} {l : List (Nat × α)} (h : e ∈ l) : (Assoc.find e.1 l).isSome = true := by
  induction l with
  | nil => simp at h
  | cons a rest ih =>
    obtain ⟨j, w⟩ := a
    by_cases hk : e.1 = j
    · simp [Assoc.find, hk]
    · have : e ∈ rest := by
        rcases List.mem_cons.mp h with rfl | h'
        · exact absurd rfl hk
        · exact h'
      simpa [Assoc.find, hk] using ih this

/-- What stands in a list after `put`: the new entry or an old one. -/
theorem Assoc.mem_put {k : Nat} {v : α} {l : List (Nat × α)} {e : Nat × α} (h : e ∈ Assoc.put k v l) :
    e = (k, v) ∨ e ∈ l := by
  induction l with
  | nil => simpa [Assoc.put] using h
  | cons a rest ih =>
    obtain ⟨j, w⟩ := a
    by_cases h1 : k < j
    · simpa [Assoc.put, h1] using h
    · by_cases h2 : k = j
      · subst h2
        simp only [Assoc.put, lt_irrefl, if_false, if_true, List.mem_cons] at h
        rcases h with h | h
        · exact .inl h
        · exact .inr (List.mem_cons_of_mem _ h)
      · simp only [Assoc.put, h1, h2, if_false, List.mem_cons] at h
        rcases h with h | h
        · exact .inr (by simp [h])
        · rcases ih h with h | h
          · exact .inl h
          · exact .inr (List.mem_cons_of_mem _ h)

theorem Assoc.mem_drop {k : Nat} {l : List (Nat × α)} {e : Nat × α} :
    e ∈ Assoc.drop k l ↔ e ∈ l ∧ e.1 ≠ k := by
  simp [Assoc.drop]

theorem Assoc.above_iff {k : Nat} {l : List (Nat × α)} : Assoc.above k l = true ↔ ∀ e ∈ l, k < e.1 := by
  simp [Assoc.above]

theorem Assoc.sorted_cons {k : Nat} {v : α} {l : List (Nat × α)} :
    Assoc.sorted ((k, v) :: l) = true ↔ (∀ e ∈ l, k < e.1) ∧ Assoc.sorted l = true := by
  simp [Assoc.sorted, Assoc.above]

/-- `put` keeps the canonical order. -/
theorem Assoc.sorted_put (k : Nat) (v : α) {l : List (Nat × α)} (h : Assoc.sorted l = true) :
    Assoc.sorted (Assoc.put k v l) = true := by
  induction l with
  | nil => simp [Assoc.put, Assoc.sorted, Assoc.above]
  | cons a rest ih =>
    obtain ⟨j, w⟩ := a
    obtain ⟨ha, hs⟩ := Assoc.sorted_cons.mp h
    by_cases h1 : k < j
    · simp only [Assoc.put, h1, if_true]
      refine Assoc.sorted_cons.mpr ⟨?_, h⟩
      intro e he
      rcases List.mem_cons.mp he with rfl | he
      · exact h1
      · exact lt_trans h1 (ha e he)
    · by_cases h2 : k = j
      · subst h2
        simpa only [Assoc.put, lt_irrefl, if_false, if_true] using Assoc.sorted_cons.mpr ⟨ha, hs⟩
      · simp only [Assoc.put, h1, h2, if_false]
        refine Assoc.sorted_cons.mpr ⟨?_, ih hs⟩
        intro e he
        rcases Assoc.mem_put he with rfl | he
        · simp only; omega
        · exact ha e he

/-- `drop` keeps the canonical order. -/
theorem Assoc.sorted_drop (k : Nat) {l : List (Nat × α)} (h : Assoc.sorted l = true) :
    Assoc.sorted (Assoc.drop k l) = true := by
  induction l with
  | nil => rfl
  | cons a rest ih =>
    obtain ⟨j, w⟩ := a
    obtain ⟨ha, hs⟩ := Assoc.sorted_cons.mp h
    by_cases hj : j = k
    · simpa [Assoc.drop, hj] using ih hs
    · have : Assoc.drop k ((j, w) :: rest) = (j, w) :: Assoc.drop k rest := by simp [Assoc.drop, hj]
      rw [this]
      exact Assoc.sorted_cons.mpr ⟨fun e he => ha e (Assoc.mem_drop.mp he).1, ih hs⟩

/-- In the canonical order an entry of the list is what the look-up gives. -/
theorem Assoc.find_of_mem {k : Nat} {v : α} {l : List (Nat × α)} (hs : Assoc.sorted l = true) (h : (k, v) ∈ l) :
    Assoc.find k l = some v := by
  induction l with
  | nil => simp at h
  | cons a rest ih =>
    obtain ⟨j, w⟩ := a
    obtain ⟨ha, hs'⟩ := Assoc.sorted_cons.mp hs
    rcases List.mem_cons.mp h with h | h
    · injection h with h1 h2; simp [Assoc.find, h1, h2]
    · have : k ≠ j := by have := ha _ h; simp only at this; omega
      simpa [Assoc.find, this] using ih hs' h

/-- A list in canonical order is determined by what it holds under each key. -/
theorem Assoc.ext_of_sorted {l m : List (Nat × α)} (hl : Assoc.sorted l = true) (hm : Assoc.sorted m = true)
    (h : ∀ k, Assoc.find k l = Assoc.find k m) : l = m := by
  induction l generalizing m with
  | nil =>
    cases m with
    | nil => rfl
    | cons b m' => obtain ⟨j, w⟩ := b; simpa [Assoc.find] using h j
  | cons a l' ih =>
    obtain ⟨i, v⟩ := a
    obtain ⟨ha, hl'⟩ := Assoc.sorted_cons.mp hl
    cases m with
    | nil => simpa [Assoc.find] using h i
    | cons b m' =>
      obtain ⟨j, w⟩ := b
      obtain ⟨hb, hm'⟩ := Assoc.sorted_cons.mp hm
      have not_above : ∀ {p : Nat} {t : List (Nat × α)}, (∀ e ∈ t, p < e.1) → Assoc.find p t = none := by
        intro p t ht
        cases hf : Assoc.find p t with
        | none => rfl
        | some u => exact absurd (ht _ (Assoc.mem_of_find hf)) (lt_irrefl _)
      have hij : i = j := by
        have hi := h i
        have hj := h j
        by_contra hne
        have hne' : ¬ j = i := fun x => hne x.symm
        simp only [Assoc.find, if_true, if_neg hne, if_neg hne'] at hi hj
        have h1 := hb _ (Assoc.mem_of_find hi.symm)
        have h2 := ha _ (Assoc.mem_of_find hj)
        simp only at h1 h2
        omega
      subst hij
      have hvw : v = w := by simpa [Assoc.find] using h i
      subst hvw
      congr 1
      refine ih hl' hm' fun k => ?_
      by_cases hk : k = i
      · subst hk; rw [not_above ha, not_above hb]
      · simpa [Assoc.find, hk] using h k

/-- Summing over the entries after `drop` and `put` of a key: the new entry's share is added to the others'. -/
theorem Assoc.sum_put (f : Nat × α → Nat) (k : Nat) (v : α) {l : List (Nat × α)} (hs : Assoc.sorted l = true) :
    ((Assoc.put k v l).map f).sum = f (k, v) + ((Assoc.drop k l).map f).sum := by
  have drop_id : ∀ {t : List (Nat × α)}, (∀ e ∈ t, k < e.1) → Assoc.drop k t = t := by
    intro t ht
    refine List.filter_eq_self.mpr fun e he => ?_
    have := ht e he
    simp only [bne_iff_ne, ne_eq]; omega
  induction l with
  | nil => simp [Assoc.put, Assoc.drop]
  | cons a rest ih =>
    obtain ⟨j, w⟩ := a
    obtain ⟨ha, hs'⟩ := Assoc.sorted_cons.mp hs
    by_cases h1 : k < j
    · have : Assoc.drop k ((j, w) :: rest) = (j, w) :: rest := drop_id fun e he => by
        rcases List.mem_cons.mp he with rfl | he
        · exact h1
        · exact lt_trans h1 (ha e he)
      simp [Assoc.put, h1, this]
    · by_cases h2 : k = j
      · subst h2
        have : Assoc.drop k ((k, w) :: rest) = rest := by
          rw [show Assoc.drop k ((k, w) :: rest) = Assoc.drop k rest by simp [Assoc.drop]]
          exact drop_id ha
        simp [Assoc.put, this]
      · have h3 : ¬ j = k := fun x => h2 x.symm
        have : Assoc.drop k ((j, w) :: rest) = (j, w) :: Assoc.drop k rest := by simp [Assoc.drop, h3]
        simp only [Assoc.put, h1, h2, if_false, this, List.map_cons, List.sum_cons, ih hs']
        omega

/-- The sum over the entries splits into one key's share and the others'. -/
theorem Assoc.sum_split (f : Nat × α → Nat) {k : Nat} {v : α} {l : List (Nat × α)} (hs : Assoc.sorted l = true)
    (h : Assoc.find k l = some v) : (l.map f).sum = f (k, v) + ((Assoc.drop k l).map f).sum := by
  have : Assoc.put k v l = l := Assoc.ext_of_sorted (Assoc.sorted_put k v hs) hs fun j => by
    by_cases hj : j = k
    · subst hj; rw [Assoc.find_put_same, h]
    · exact Assoc.find_put_other hj v l
  rw [← Assoc.sum_put f k v hs, this]

/-- Dropping a key that has no entry changes nothing. -/
theorem Assoc.drop_eq_self {k : Nat} {l : List (Nat × α)} (h : Assoc.find k l = none) : Assoc.drop k l = l := by
  refine List.filter_eq_self.mpr fun e he => ?_
  have := Assoc.find_isSome_of_mem he
  simp only [bne_iff_ne, ne_eq]
  rintro rfl
  simp [h] at this

end Sys2Proof.Machine
end

