-- ==== Sys2Proof/Laws/State.lean ====
section
/-! SUPPORT. The small lemmas of the state's updates: one per field per update, and what the register and memory readers give
after each, so that no later proof unfolds a record update. -/

namespace Sys2Proof.Machine

variable (s : State)

/-! ### writeReg -/

@[simp] theorem State.writeReg_x (r : Reg) (v : Word) : (s.writeReg r v).x = s.x.set r v := rfl
@[simp] theorem State.writeReg_pc (r : Reg) (v : Word) : (s.writeReg r v).pc = s.pc := rfl
@[simp] theorem State.writeReg_seg (r : Reg) (v : Word) : (s.writeReg r v).seg = s.seg := rfl
@[simp] theorem State.writeReg_free (r : Reg) (v : Word) : (s.writeReg r v).free = s.free := rfl
@[simp] theorem State.writeReg_status (r : Reg) (v : Word) : (s.writeReg r v).status = s.status := rfl
@[simp] theorem State.writeReg_input (r : Reg) (v : Word) : (s.writeReg r v).input = s.input := rfl
@[simp] theorem State.writeReg_out (r : Reg) (v : Word) : (s.writeReg r v).out = s.out := rfl
@[simp] theorem State.writeReg_sinkReady (r : Reg) (v : Word) : (s.writeReg r v).sinkReady = s.sinkReady := rfl
@[simp] theorem State.writeReg_capWords (r : Reg) (v : Word) : (s.writeReg r v).capWords = s.capWords := rfl
@[simp] theorem State.writeReg_reuses (r : Reg) (v : Word) : (s.writeReg r v).reuses = s.reuses := rfl
@[simp] theorem State.writeReg_segment (r : Reg) (v : Word) (j : Word) : (s.writeReg r v).segment? j = s.segment? j := rfl
@[simp] theorem State.writeReg_mapped (r : Reg) (v : Word) (j : Word) : (s.writeReg r v).mapped j = s.mapped j := rfl
@[simp] theorem State.writeReg_lenOf (r : Reg) (v : Word) (j : Word) : (s.writeReg r v).lenOf j = s.lenOf j := rfl
@[simp] theorem State.writeReg_wordAt (r : Reg) (v : Word) (j i : Word) : (s.writeReg r v).wordAt j i = s.wordAt j i := rfl

/-! ### setPc -/

@[simp] theorem State.setPc_x (p : Word) : (s.setPc p).x = s.x := rfl
@[simp] theorem State.setPc_pc (p : Word) : (s.setPc p).pc = p := rfl
@[simp] theorem State.setPc_seg (p : Word) : (s.setPc p).seg = s.seg := rfl
@[simp] theorem State.setPc_free (p : Word) : (s.setPc p).free = s.free := rfl
@[simp] theorem State.setPc_status (p : Word) : (s.setPc p).status = s.status := rfl
@[simp] theorem State.setPc_input (p : Word) : (s.setPc p).input = s.input := rfl
@[simp] theorem State.setPc_out (p : Word) : (s.setPc p).out = s.out := rfl
@[simp] theorem State.setPc_sinkReady (p : Word) : (s.setPc p).sinkReady = s.sinkReady := rfl
@[simp] theorem State.setPc_capWords (p : Word) : (s.setPc p).capWords = s.capWords := rfl
@[simp] theorem State.setPc_reuses (p : Word) : (s.setPc p).reuses = s.reuses := rfl
@[simp] theorem State.setPc_readReg (p : Word) (q : Reg) : (s.setPc p).readReg q = s.readReg q := rfl
@[simp] theorem State.setPc_segment (p : Word) (j : Word) : (s.setPc p).segment? j = s.segment? j := rfl
@[simp] theorem State.setPc_mapped (p : Word) (j : Word) : (s.setPc p).mapped j = s.mapped j := rfl
@[simp] theorem State.setPc_lenOf (p : Word) (j : Word) : (s.setPc p).lenOf j = s.lenOf j := rfl
@[simp] theorem State.setPc_wordAt (p : Word) (j i : Word) : (s.setPc p).wordAt j i = s.wordAt j i := rfl

/-! ### advance -/

@[simp] theorem State.advance_x : s.advance.x = s.x := rfl
@[simp] theorem State.advance_pc : s.advance.pc = s.pc + 1#32 := rfl
@[simp] theorem State.advance_seg : s.advance.seg = s.seg := rfl
@[simp] theorem State.advance_free : s.advance.free = s.free := rfl
@[simp] theorem State.advance_status : s.advance.status = s.status := rfl
@[simp] theorem State.advance_input : s.advance.input = s.input := rfl
@[simp] theorem State.advance_out : s.advance.out = s.out := rfl
@[simp] theorem State.advance_sinkReady : s.advance.sinkReady = s.sinkReady := rfl
@[simp] theorem State.advance_capWords : s.advance.capWords = s.capWords := rfl
@[simp] theorem State.advance_reuses : s.advance.reuses = s.reuses := rfl
@[simp] theorem State.advance_readReg (q : Reg) : s.advance.readReg q = s.readReg q := rfl
@[simp] theorem State.advance_segment (j : Word) : s.advance.segment? j = s.segment? j := rfl
@[simp] theorem State.advance_mapped (j : Word) : s.advance.mapped j = s.mapped j := rfl
@[simp] theorem State.advance_lenOf (j : Word) : s.advance.lenOf j = s.lenOf j := rfl
@[simp] theorem State.advance_wordAt (j i : Word) : s.advance.wordAt j i = s.wordAt j i := rfl

/-! ### raise -/

@[simp] theorem State.raise_x (k : FatalKind) : (s.raise k).x = s.x := rfl
@[simp] theorem State.raise_pc (k : FatalKind) : (s.raise k).pc = s.pc := rfl
@[simp] theorem State.raise_seg (k : FatalKind) : (s.raise k).seg = s.seg := rfl
@[simp] theorem State.raise_free (k : FatalKind) : (s.raise k).free = s.free := rfl
@[simp] theorem State.raise_status (k : FatalKind) : (s.raise k).status = .fatal k := rfl
@[simp] theorem State.raise_input (k : FatalKind) : (s.raise k).input = s.input := rfl
@[simp] theorem State.raise_out (k : FatalKind) : (s.raise k).out = s.out := rfl
@[simp] theorem State.raise_sinkReady (k : FatalKind) : (s.raise k).sinkReady = s.sinkReady := rfl
@[simp] theorem State.raise_capWords (k : FatalKind) : (s.raise k).capWords = s.capWords := rfl
@[simp] theorem State.raise_reuses (k : FatalKind) : (s.raise k).reuses = s.reuses := rfl
@[simp] theorem State.raise_readReg (k : FatalKind) (q : Reg) : (s.raise k).readReg q = s.readReg q := rfl
@[simp] theorem State.raise_segment (k : FatalKind) (j : Word) : (s.raise k).segment? j = s.segment? j := rfl
@[simp] theorem State.raise_mapped (k : FatalKind) (j : Word) : (s.raise k).mapped j = s.mapped j := rfl
@[simp] theorem State.raise_lenOf (k : FatalKind) (j : Word) : (s.raise k).lenOf j = s.lenOf j := rfl
@[simp] theorem State.raise_wordAt (k : FatalKind) (j i : Word) : (s.raise k).wordAt j i = s.wordAt j i := rfl

/-! ### stop -/

@[simp] theorem State.stop_x : s.stop.x = s.x := rfl
@[simp] theorem State.stop_pc : s.stop.pc = s.pc := rfl
@[simp] theorem State.stop_seg : s.stop.seg = s.seg := rfl
@[simp] theorem State.stop_free : s.stop.free = s.free := rfl
@[simp] theorem State.stop_status : s.stop.status = .halted := rfl
@[simp] theorem State.stop_input : s.stop.input = s.input := rfl
@[simp] theorem State.stop_out : s.stop.out = s.out := rfl
@[simp] theorem State.stop_sinkReady : s.stop.sinkReady = s.sinkReady := rfl
@[simp] theorem State.stop_capWords : s.stop.capWords = s.capWords := rfl
@[simp] theorem State.stop_reuses : s.stop.reuses = s.reuses := rfl
@[simp] theorem State.stop_readReg (q : Reg) : s.stop.readReg q = s.readReg q := rfl
@[simp] theorem State.stop_segment (j : Word) : s.stop.segment? j = s.segment? j := rfl
@[simp] theorem State.stop_mapped (j : Word) : s.stop.mapped j = s.mapped j := rfl
@[simp] theorem State.stop_lenOf (j : Word) : s.stop.lenOf j = s.lenOf j := rfl
@[simp] theorem State.stop_wordAt (j i : Word) : s.stop.wordAt j i = s.wordAt j i := rfl

/-! ### emit -/

@[simp] theorem State.emit_x (b : Byte) : (s.emit b).x = s.x := rfl
@[simp] theorem State.emit_pc (b : Byte) : (s.emit b).pc = s.pc := rfl
@[simp] theorem State.emit_seg (b : Byte) : (s.emit b).seg = s.seg := rfl
@[simp] theorem State.emit_free (b : Byte) : (s.emit b).free = s.free := rfl
@[simp] theorem State.emit_status (b : Byte) : (s.emit b).status = s.status := rfl
@[simp] theorem State.emit_input (b : Byte) : (s.emit b).input = s.input := rfl
@[simp] theorem State.emit_out (b : Byte) : (s.emit b).out = s.out ++ [b] := rfl
@[simp] theorem State.emit_sinkReady (b : Byte) : (s.emit b).sinkReady = s.sinkReady := rfl
@[simp] theorem State.emit_capWords (b : Byte) : (s.emit b).capWords = s.capWords := rfl
@[simp] theorem State.emit_reuses (b : Byte) : (s.emit b).reuses = s.reuses := rfl
@[simp] theorem State.emit_readReg (b : Byte) (q : Reg) : (s.emit b).readReg q = s.readReg q := rfl
@[simp] theorem State.emit_segment (b : Byte) (j : Word) : (s.emit b).segment? j = s.segment? j := rfl
@[simp] theorem State.emit_mapped (b : Byte) (j : Word) : (s.emit b).mapped j = s.mapped j := rfl
@[simp] theorem State.emit_lenOf (b : Byte) (j : Word) : (s.emit b).lenOf j = s.lenOf j := rfl
@[simp] theorem State.emit_wordAt (b : Byte) (j i : Word) : (s.emit b).wordAt j i = s.wordAt j i := rfl

/-! ### setProgram -/

@[simp] theorem State.setProgram_x (g : Segment) : (s.setProgram g).x = s.x := rfl
@[simp] theorem State.setProgram_pc (g : Segment) : (s.setProgram g).pc = s.pc := rfl
@[simp] theorem State.setProgram_seg (g : Segment) : (s.setProgram g).seg = Assoc.put 0 g s.seg := rfl
@[simp] theorem State.setProgram_free (g : Segment) : (s.setProgram g).free = s.free := rfl
@[simp] theorem State.setProgram_status (g : Segment) : (s.setProgram g).status = s.status := rfl
@[simp] theorem State.setProgram_input (g : Segment) : (s.setProgram g).input = s.input := rfl
@[simp] theorem State.setProgram_out (g : Segment) : (s.setProgram g).out = s.out := rfl
@[simp] theorem State.setProgram_sinkReady (g : Segment) : (s.setProgram g).sinkReady = s.sinkReady := rfl
@[simp] theorem State.setProgram_capWords (g : Segment) : (s.setProgram g).capWords = s.capWords := rfl
@[simp] theorem State.setProgram_reuses (g : Segment) : (s.setProgram g).reuses = s.reuses := rfl
@[simp] theorem State.setProgram_readReg (g : Segment) (q : Reg) : (s.setProgram g).readReg q = s.readReg q := rfl

/-! ### release -/

@[simp] theorem State.release_x (id : Word) : (s.release id).x = s.x := rfl
@[simp] theorem State.release_pc (id : Word) : (s.release id).pc = s.pc := rfl
@[simp] theorem State.release_seg (id : Word) : (s.release id).seg = Assoc.drop id.toNat s.seg := rfl
@[simp] theorem State.release_free (id : Word) : (s.release id).free = s.free.insert id := rfl
@[simp] theorem State.release_status (id : Word) : (s.release id).status = s.status := rfl
@[simp] theorem State.release_input (id : Word) : (s.release id).input = s.input := rfl
@[simp] theorem State.release_out (id : Word) : (s.release id).out = s.out := rfl
@[simp] theorem State.release_sinkReady (id : Word) : (s.release id).sinkReady = s.sinkReady := rfl
@[simp] theorem State.release_capWords (id : Word) : (s.release id).capWords = s.capWords := rfl
@[simp] theorem State.release_reuses (id : Word) : (s.release id).reuses = s.reuses := rfl
@[simp] theorem State.release_readReg (id : Word) (q : Reg) : (s.release id).readReg q = s.readReg q := rfl

/-! ### failed -/

@[simp] theorem State.failed_x (k : FatalKind) : (s.failed k).x = s.x := rfl
@[simp] theorem State.failed_pc (k : FatalKind) : (s.failed k).pc = s.pc := rfl
@[simp] theorem State.failed_seg (k : FatalKind) : (s.failed k).seg = s.seg := rfl
@[simp] theorem State.failed_free (k : FatalKind) : (s.failed k).free = s.free := rfl
@[simp] theorem State.failed_status (k : FatalKind) : (s.failed k).status = .fatal k := rfl
@[simp] theorem State.failed_input (k : FatalKind) : (s.failed k).input = s.input := rfl
@[simp] theorem State.failed_out (k : FatalKind) : (s.failed k).out = s.out := rfl
@[simp] theorem State.failed_sinkReady (k : FatalKind) : (s.failed k).sinkReady = s.sinkReady := rfl
@[simp] theorem State.failed_capWords (k : FatalKind) : (s.failed k).capWords = s.capWords := rfl
@[simp] theorem State.failed_reuses (k : FatalKind) : (s.failed k).reuses = s.reuses := rfl
@[simp] theorem State.failed_readReg (k : FatalKind) (q : Reg) : (s.failed k).readReg q = s.readReg q := rfl
@[simp] theorem State.failed_segment (k : FatalKind) (j : Word) : (s.failed k).segment? j = s.segment? j := rfl
@[simp] theorem State.failed_mapped (k : FatalKind) (j : Word) : (s.failed k).mapped j = s.mapped j := rfl
@[simp] theorem State.failed_lenOf (k : FatalKind) (j : Word) : (s.failed k).lenOf j = s.lenOf j := rfl
@[simp] theorem State.failed_wordAt (k : FatalKind) (j i : Word) : (s.failed k).wordAt j i = s.wordAt j i := rfl

/-! ### Registers -/

@[simp] theorem State.readReg_writeReg_same (r : Reg) (v : Word) : (s.writeReg r v).readReg r = v := by
  simp [State.readReg, State.writeReg]

theorem State.readReg_writeReg_other {r q : Reg} (h : q ≠ r) (v : Word) : (s.writeReg r v).readReg q = s.readReg q := by
  have h' : (r : Nat) ≠ (q : Nat) := fun x => h (Fin.ext x.symm)
  simp [State.readReg, State.writeReg, h']

/-- Every register of the reset state is zero (R37). -/
@[simp] theorem State.reset_readReg (r : Reg) : State.reset.readReg r = 0#32 := by
  simp [State.readReg, State.reset]

/-- Taking a fatal condition is exactly the change the spec gives it (R143). -/
theorem State.raise_eq_failed (k : FatalKind) : s.raise k = s.failed k := rfl

end Sys2Proof.Machine
end

