-- ==== Sys2Proof/Laws/Memory.lean ====
section
/-! SUPPORT. The laws of memory: what a read gives after a write, what every memory operation can do, that each keeps the
canonical form, and that the form determines memory. -/

namespace Sys2Proof.Machine

/-! ### One segment -/

@[simp] theorem Segment.zeros_len (n : Nat) : (Segment.zeros n).len = n := rfl

theorem Segment.read_lt {g : Segment} {i : Nat} (h : i < g.len) :
    g.read i = some ((Assoc.find i g.cells).getD unlistedWord) := by
  simp [Segment.read, h]

theorem Segment.read_ge {g : Segment} {i : Nat} (h : g.len ≤ i) : g.read i = none := by
  simp [Segment.read, Nat.not_lt.mpr h]

/-- A word is readable exactly below the length (R41). -/
theorem Segment.read_isSome {g : Segment} {i : Nat} : (g.read i).isSome = true ↔ i < g.len := by
  by_cases h : i < g.len <;> simp [Segment.read, h]

/-- Every word of a new segment is zero (R111). -/
theorem Segment.read_zeros {n i : Nat} (h : i < n) : (Segment.zeros n).read i = some 0#32 := by
  simp [Segment.read, Segment.zeros, h, Assoc.find, unlistedWord]

theorem Segment.write_ge {g : Segment} {i : Nat} (h : g.len ≤ i) (v : Word) : g.write i v = none := by
  simp [Segment.write, Nat.not_lt.mpr h]

/-- What a write inside the segment does: the length stays, the word is the new one, the others stay (R48). -/
theorem Segment.write_spec {g : Segment} {i : Nat} (h : i < g.len) (v : Word) :
    ∃ g', g.write i v = some g' ∧ g'.len = g.len ∧ g'.read i = some v ∧ ∀ j, j ≠ i → g'.read j = g.read j := by
  by_cases hv : v = unlistedWord
  · refine ⟨{ g with cells := Assoc.drop i g.cells }, by simp [Segment.write, h, hv], rfl, ?_, ?_⟩
    · simp [Segment.read, h, hv]
    · intro j hj; simp [Segment.read, Assoc.find_drop_other hj]
  · refine ⟨{ g with cells := Assoc.put i v g.cells }, by simp [Segment.write, h, hv], rfl, ?_, ?_⟩
    · simp [Segment.read, h]
    · intro j hj; simp [Segment.read, Assoc.find_put_other hj]

theorem Segment.wf_iff {g : Segment} : g.wf = true ↔
    Assoc.sorted g.cells = true ∧ (∀ e ∈ g.cells, e.1 < g.len ∧ e.2 ≠ unlistedWord) ∧ g.len < 2 ^ 32 := by
  simp only [Segment.wf, Bool.and_eq_true, List.all_eq_true, decide_eq_true_eq, and_assoc]

theorem Segment.wf_zeros {n : Nat} (h : n < 2 ^ 32) : (Segment.zeros n).wf = true :=
  Segment.wf_iff.mpr ⟨rfl, by simp [Segment.zeros], h⟩

/-- A write keeps a segment's canonical form. -/
theorem Segment.wf_write {g g' : Segment} {i : Nat} {v : Word} (hg : g.wf = true) (h : g.write i v = some g') :
    g'.wf = true := by
  obtain ⟨hs, ha, hl⟩ := Segment.wf_iff.mp hg
  unfold Segment.write at h
  split at h
  · rename_i hi
    obtain rfl := Option.some.inj h
    by_cases hv : v = unlistedWord
    · rw [if_pos hv]
      exact Segment.wf_iff.mpr ⟨Assoc.sorted_drop i hs, fun e he => ha e (Assoc.mem_drop.mp he).1, hl⟩
    · rw [if_neg hv]
      refine Segment.wf_iff.mpr ⟨Assoc.sorted_put i v hs, fun e he => ?_, hl⟩
      rcases Assoc.mem_put he with rfl | he
      · exact ⟨hi, hv⟩
      · exact ha e he
  · cases h

/-- A segment in canonical form is determined by its length and its words. -/
theorem Segment.ext_of_wf {g h : Segment} (hg : g.wf = true) (hh : h.wf = true) (hl : g.len = h.len)
    (hr : ∀ i, i < g.len → g.read i = h.read i) : g = h := by
  obtain ⟨gs, ga, -⟩ := Segment.wf_iff.mp hg
  obtain ⟨hs, ha, -⟩ := Segment.wf_iff.mp hh
  suffices g.cells = h.cells by cases g; cases h; simp_all
  refine Assoc.ext_of_sorted gs hs fun k => ?_
  cases hgk : Assoc.find k g.cells with
  | none =>
    cases hhk : Assoc.find k h.cells with
    | none => rfl
    | some w =>
      obtain ⟨h1, h2⟩ := ha _ (Assoc.mem_of_find hhk)
      have := hr k (hl ▸ h1)
      simp [Segment.read, hl, show k < h.len from h1, hgk, hhk] at this
      exact absurd this.symm h2
  | some v =>
    obtain ⟨h1, h2⟩ := ga _ (Assoc.mem_of_find hgk)
    have := hr k h1
    rw [Segment.read_lt h1, Segment.read_lt (hl ▸ h1), hgk] at this
    cases hhk : Assoc.find k h.cells with
    | none => simp [hhk] at this; exact absurd this h2
    | some w => simpa [hhk] using this

/-! ### The words of an image -/

theorem cellsFrom_mem {i : Nat} {ws : List Word} {e : Nat × Word} (h : e ∈ cellsFrom i ws) :
    i ≤ e.1 ∧ e.1 < i + ws.length ∧ e.2 ≠ unlistedWord := by
  induction ws generalizing i with
  | nil => simp [cellsFrom] at h
  | cons w rest ih =>
    simp only [List.length_cons]
    by_cases hw : w = unlistedWord
    · simp only [cellsFrom, hw, if_true] at h
      obtain ⟨h1, h2, h3⟩ := ih h
      exact ⟨by omega, by omega, h3⟩
    · simp only [cellsFrom, hw, if_false, List.mem_cons] at h
      rcases h with rfl | h
      · exact ⟨le_refl _, by simp only; omega, hw⟩
      · obtain ⟨h1, h2, h3⟩ := ih h
        exact ⟨by omega, by omega, h3⟩

theorem cellsFrom_sorted (i : Nat) (ws : List Word) : Assoc.sorted (cellsFrom i ws) = true := by
  induction ws generalizing i with
  | nil => rfl
  | cons w rest ih =>
    by_cases hw : w = unlistedWord
    · simpa only [cellsFrom, hw, if_true] using ih (i + 1)
    · simp only [cellsFrom, hw, if_false]
      exact Assoc.sorted_cons.mpr ⟨fun e he => (cellsFrom_mem he).1, ih (i + 1)⟩

theorem cellsFrom_find (i k : Nat) (ws : List Word) (h : k < ws.length) :
    (Assoc.find (i + k) (cellsFrom i ws)).getD unlistedWord = ws[k] := by
  induction ws generalizing i k with
  | nil => simp at h
  | cons w rest ih =>
    cases k with
    | zero =>
      by_cases hw : w = unlistedWord
      · have : Assoc.find (i + 0) (cellsFrom (i + 1) rest) = none := by
          cases hf : Assoc.find (i + 0) (cellsFrom (i + 1) rest) with
          | none => rfl
          | some v => have := (cellsFrom_mem (Assoc.mem_of_find hf)).1; simp only at this; omega
        simp only [cellsFrom, hw, if_true, this, List.getElem_cons_zero, Option.getD_none]
      · simp [cellsFrom, hw, Assoc.find]
    | succ k =>
      have hk : k < rest.length := by simpa using h
      have := ih (i + 1) k hk
      rw [show i + 1 + k = i + (k + 1) by omega] at this
      by_cases hw : w = unlistedWord
      · simpa [cellsFrom, hw] using this
      · simpa [cellsFrom, hw, Assoc.find] using this

/-- The segment made from words holds exactly them (R151). -/
theorem Segment.read_ofWords (ws : List Word) (i : Nat) : (Segment.ofWords ws).read i = ws[i]? := by
  by_cases h : i < ws.length
  · have := cellsFrom_find 0 i ws h
    rw [Nat.zero_add] at this
    simp [Segment.read, Segment.ofWords, h, this]
  · simp [Segment.read, Segment.ofWords, h]

theorem Segment.wf_ofWords {ws : List Word} (h : ws.length < 2 ^ 32) : (Segment.ofWords ws).wf = true := by
  refine Segment.wf_iff.mpr ⟨cellsFrom_sorted 0 ws, fun e he => ?_, h⟩
  obtain ⟨-, h2, h3⟩ := cellsFrom_mem he
  exact ⟨by simpa [Segment.ofWords] using h2, h3⟩

/-! ### All of memory -/

theorem Memory.wf_iff {m : Memory} : Memory.wf m = true ↔
    Assoc.sorted m = true ∧ ∀ e ∈ m, e.1 < 2 ^ 32 ∧ e.2.wf = true := by
  simp only [Memory.wf, Bool.and_eq_true, List.all_eq_true, decide_eq_true_eq]

/-- Storing a segment in canonical form keeps memory's form. -/
theorem Memory.wf_put {m : Memory} {id : Nat} {g : Segment} (hm : Memory.wf m = true) (hid : id < 2 ^ 32)
    (hg : g.wf = true) : Memory.wf (Assoc.put id g m) = true := by
  obtain ⟨hs, ha⟩ := Memory.wf_iff.mp hm
  refine Memory.wf_iff.mpr ⟨Assoc.sorted_put id g hs, fun e he => ?_⟩
  rcases Assoc.mem_put he with rfl | he
  · exact ⟨hid, hg⟩
  · exact ha e he

/-- Removing a segment keeps memory's form. -/
theorem Memory.wf_drop {m : Memory} (id : Nat) (hm : Memory.wf m = true) : Memory.wf (Assoc.drop id m) = true := by
  obtain ⟨hs, ha⟩ := Memory.wf_iff.mp hm
  exact Memory.wf_iff.mpr ⟨Assoc.sorted_drop id hs, fun e he => ha e (Assoc.mem_drop.mp he).1⟩

/-- A mapped segment of a memory in canonical form is in canonical form. -/
theorem Memory.wf_find {m : Memory} {id : Nat} {g : Segment} (hm : Memory.wf m = true)
    (h : Assoc.find id m = some g) : id < 2 ^ 32 ∧ g.wf = true :=
  (Memory.wf_iff.mp hm).2 _ (Assoc.mem_of_find h)

/-- The reset memory is in canonical form. -/
theorem Memory.wf_reset : Memory.wf State.reset.seg = true := by decide

/-! ### Reading the state's memory through an updated list -/

variable (s : State)

theorem State.lenOf_of_segment {s : State} {id : Word} {g : Segment} (h : s.segment? id = some g) :
    s.lenOf id = some g.len := by simp [State.lenOf, h]

theorem State.wordAt_of_segment {s : State} {id : Word} {g : Segment} (h : s.segment? id = some g) (i : Word) :
    s.wordAt id i = g.read i.toNat := by simp [State.wordAt, h]

theorem State.lenOf_of_absent {s : State} {id : Word} (h : s.segment? id = none) : s.lenOf id = none := by
  simp [State.lenOf, h]

theorem State.wordAt_of_absent {s : State} {id : Word} (h : s.segment? id = none) (i : Word) : s.wordAt id i = none := by
  simp [State.wordAt, h]

/-- A length is given exactly by a mapped segment. -/
theorem State.segment_of_lenOf {s : State} {id : Word} {n : Nat} (h : s.lenOf id = some n) :
    ∃ g, s.segment? id = some g ∧ g.len = n := by
  simpa [State.lenOf] using h

theorem State.absent_of_lenOf {s : State} {id : Word} (h : s.lenOf id = none) : s.segment? id = none := by
  simpa [State.lenOf] using h

/-- The segments of a state whose memory is `put id g` of another's. -/
theorem State.segment_put {s t : State} {id : Word} {g : Segment} (h : t.seg = Assoc.put id.toNat g s.seg) (j : Word) :
    t.segment? j = if j = id then some g else s.segment? j := by
  unfold State.segment?
  rw [h]
  by_cases hj : j = id
  · subst hj; simp
  · have : j.toNat ≠ id.toNat := fun x => hj (BitVec.eq_of_toNat_eq x)
    simp [hj, Assoc.find_put_other this]

/-- The segments of a state whose memory is `drop id` of another's. -/
theorem State.segment_drop {s t : State} {id : Word} (h : t.seg = Assoc.drop id.toNat s.seg) (j : Word) :
    t.segment? j = if j = id then none else s.segment? j := by
  unfold State.segment?
  rw [h]
  by_cases hj : j = id
  · subst hj; simp
  · have : j.toNat ≠ id.toNat := fun x => hj (BitVec.eq_of_toNat_eq x)
    simp [hj, Assoc.find_drop_other this]

/-- Two states whose look-ups of an identifier agree read the same there. -/
theorem State.reads_eq_of_segment {s t : State} {j : Word} (h : t.segment? j = s.segment? j) :
    (∀ i, t.wordAt j i = s.wordAt j i) ∧ t.lenOf j = s.lenOf j := by
  simp [State.wordAt, State.lenOf, h]

/-! ### The memory controller's two accesses: everything each can do -/

/-- Everything a read can answer (R46, R47). -/
theorem State.memRead_cases (id i : Word) :
    (s.segment? id = none ∧ s.memRead id i = .error .unmappedSegment) ∨
    (∃ g, s.segment? id = some g ∧ g.len ≤ i.toNat ∧ s.memRead id i = .error .outOfBounds) ∨
    (∃ g v, s.segment? id = some g ∧ i.toNat < g.len ∧ g.read i.toNat = some v ∧ s.memRead id i = .ok v) := by
  cases hg : s.segment? id with
  | none => exact .inl ⟨rfl, by simp [State.memRead, hg]⟩
  | some g =>
    by_cases h : i.toNat < g.len
    · exact .inr (.inr ⟨g, _, rfl, h, Segment.read_lt h, by simp [State.memRead, hg, Segment.read_lt h]⟩)
    · have h' := Nat.not_lt.mp h
      exact .inr (.inl ⟨g, rfl, h', by simp [State.memRead, hg, Segment.read_ge h']⟩)

/-- Everything a write can answer (R46, R48). -/
theorem State.memWrite_cases (id i v : Word) :
    (s.segment? id = none ∧ s.memWrite id i v = .error .unmappedSegment) ∨
    (∃ g, s.segment? id = some g ∧ g.len ≤ i.toNat ∧ s.memWrite id i v = .error .outOfBounds) ∨
    (∃ g g', s.segment? id = some g ∧ i.toNat < g.len ∧ g.write i.toNat v = some g' ∧
      s.memWrite id i v = .ok { s with seg := Assoc.put id.toNat g' s.seg }) := by
  cases hg : s.segment? id with
  | none => exact .inl ⟨rfl, by simp [State.memWrite, hg]⟩
  | some g =>
    by_cases h : i.toNat < g.len
    · obtain ⟨g', hw, -⟩ := Segment.write_spec h v
      exact .inr (.inr ⟨g, g', rfl, h, hw, by simp [State.memWrite, hg, hw]⟩)
    · have h' := Nat.not_lt.mp h
      exact .inr (.inl ⟨g, rfl, h', by simp [State.memWrite, hg, Segment.write_ge h']⟩)

/-- A write that succeeds: the word is the new one, every other word and every length stay (R48). -/
theorem State.memWrite_ok {s t : State} {id i v : Word} (h : s.memWrite id i v = .ok t) :
    t.wordAt id i = some v ∧ (∀ j k, (j, k) ≠ (id, i) → t.wordAt j k = s.wordAt j k) ∧
      (∀ j, t.lenOf j = s.lenOf j) ∧ t = { s with seg := t.seg } := by
  rcases s.memWrite_cases id i v with ⟨-, h'⟩ | ⟨g, -, -, h'⟩ | ⟨g, g', hg, hi, hw, h'⟩
  · rw [h'] at h; cases h
  · rw [h'] at h; cases h
  · rw [h'] at h
    injection h with h
    subst h
    obtain ⟨g₁, hw₁, hl, hr, ho⟩ := Segment.write_spec hi v
    obtain rfl : g' = g₁ := by rw [hw] at hw₁; exact Option.some.inj hw₁
    have hseg : ∀ j, State.segment? { s with seg := Assoc.put id.toNat g' s.seg } j = if j = id then some g' else s.segment? j :=
      State.segment_put rfl
    refine ⟨?_, ?_, ?_, rfl⟩
    · simp [State.wordAt, hseg, hr]
    · intro j k hjk
      by_cases hj : j = id
      · subst hj
        have hk : k.toNat ≠ i.toNat := fun x => hjk (by rw [BitVec.eq_of_toNat_eq x])
        simp [State.wordAt, hseg, hg, ho _ hk]
      · simp [State.wordAt, hseg, hj]
    · intro j
      by_cases hj : j = id
      · subst hj; simp [State.lenOf, hseg, hg, hl]
      · simp [State.lenOf, hseg, hj]

/-- A write keeps memory's canonical form. -/
theorem State.memWrite_wf {s t : State} {id i v : Word} (hm : Memory.wf s.seg = true) (h : s.memWrite id i v = .ok t) :
    Memory.wf t.seg = true := by
  rcases s.memWrite_cases id i v with ⟨-, h'⟩ | ⟨g, -, -, h'⟩ | ⟨g, g', hg, -, hw, h'⟩
  · rw [h'] at h; cases h
  · rw [h'] at h; cases h
  · rw [h'] at h
    injection h with h
    subst h
    exact Memory.wf_put hm id.isLt (Segment.wf_write (Memory.wf_find hm hg).2 hw)

/-- Everything a fetch can answer (R49). -/
theorem State.fetch_cases :
    (s.segment? 0#32 = none ∧ s.fetch = none) ∨
    (∃ g, s.segment? 0#32 = some g ∧ g.len ≤ s.pc.toNat ∧ s.fetch = some (.error .pcOutOfRange)) ∨
    (∃ g w, s.segment? 0#32 = some g ∧ s.pc.toNat < g.len ∧ g.read s.pc.toNat = some w ∧ s.fetch = some (.ok w)) := by
  cases hg : s.segment? 0#32 with
  | none => exact .inl ⟨rfl, by simp [State.fetch, hg]⟩
  | some g =>
    by_cases h : s.pc.toNat < g.len
    · exact .inr (.inr ⟨g, _, rfl, h, Segment.read_lt h, by simp [State.fetch, hg, Segment.read_lt h]⟩)
    · have h' := Nat.not_lt.mp h
      exact .inr (.inl ⟨g, rfl, h', by simp [State.fetch, hg, Segment.read_ge h']⟩)

/-- The fetch gives the word at `(0, pc)` where there is one. -/
theorem State.fetch_of_wordAt {s : State} {w : Word} (h : s.wordAt 0#32 s.pc = some w) : s.fetch = some (.ok w) := by
  rcases s.fetch_cases with ⟨hg, -⟩ | ⟨g, hg, hl, -⟩ | ⟨g, w', hg, -, hr, hf⟩
  · simp [State.wordAt, hg] at h
  · simp [State.wordAt, hg, Segment.read_ge hl] at h
  · rw [State.wordAt_of_segment hg, hr] at h
    rw [hf, Option.some.inj h]

end Sys2Proof.Machine
end

