-- ==== Sys2Proof/Laws/Alloc.lean ====
section
/-! SUPPORT. The laws of the allocator: what a policy may answer, that `next_id` is above every identifier in use, and
everything `Alloc` can do (spec/44_map_unmap.md R113 to R116). -/

namespace Sys2Proof.Machine

/-- Every policy returns a member of the pool (R114). -/
theorem pickFree_mem {k : Nat} {pool : List Word} {id : Word} (h : pickFree k pool = some id) : id ∈ pool := by
  match pool with
  | [] => cases h
  | [a] => simp [pickFree] at h; simp [h]
  | a :: b :: rest => exact List.mem_of_getElem? h

/-- A policy answers whenever the pool is not empty (R114). -/
theorem pickFree_isSome {pool : List Word} (h : pool ≠ []) (k : Nat) : ∃ id, pickFree k pool = some id := by
  match pool with
  | [] => exact absurd rfl h
  | [a] => exact ⟨a, rfl⟩
  | a :: b :: rest =>
    have : Config.allocChoice k (a :: b :: rest) % (rest.length + 2) < (a :: b :: rest).length :=
      Nat.mod_lt _ (Nat.succ_pos (rest.length + 1))
    exact ⟨_, List.getElem?_eq_getElem this⟩

theorem pickFree_eq_none {k : Nat} {pool : List Word} (h : pickFree k pool = none) : pool = [] := by
  by_contra hp
  obtain ⟨id, hid⟩ := pickFree_isSome hp k
  simp [hid] at h

theorem le_foldl_max (l : List Nat) (a : Nat) : a ≤ l.foldl max a ∧ ∀ k ∈ l, k ≤ l.foldl max a := by
  induction l generalizing a with
  | nil => simp
  | cons b rest ih =>
    obtain ⟨h1, h2⟩ := ih (max a b)
    simp only [List.foldl_cons, List.mem_cons]
    refine ⟨le_trans (le_max_left a b) h1, ?_⟩
    rintro k (rfl | hk)
    · exact le_trans (le_max_right a k) h1
    · exact h2 k hk

theorem foldl_max_mem (l : List Nat) (a : Nat) : l.foldl max a = a ∨ l.foldl max a ∈ l := by
  induction l generalizing a with
  | nil => simp
  | cons b rest ih =>
    simp only [List.foldl_cons, List.mem_cons]
    rcases ih (max a b) with h | h
    · rw [h]; rcases max_choice a b with h' | h' <;> simp [h']
    · exact .inr (.inr h)

variable (s : State)

/-- `next_id` is at least 1 (R29). -/
theorem State.one_le_nextId : 1 ≤ s.nextId := Nat.le_add_right 1 _

/-- A mapped identifier is below `next_id` (R29). -/
theorem State.lt_nextId_of_mem {s : State} {e : Nat × Segment} (h : e ∈ s.seg) : e.1 < s.nextId := by
  have := (le_foldl_max (s.seg.map Prod.fst ++ s.free.map BitVec.toNat) 0).2 e.1
    (List.mem_append_left _ (List.mem_map_of_mem h))
  unfold State.nextId
  omega

/-- A free identifier is below `next_id` (R29). -/
theorem State.lt_nextId_of_pooled {s : State} {id : Nat} (h : s.pooled id) : id < s.nextId := by
  have := (le_foldl_max (s.seg.map Prod.fst ++ s.free.map BitVec.toNat) 0).2 id (List.mem_append_right _ h)
  unfold State.nextId
  omega

/-- `next_id` is one past the highest identifier in use, or 1 (R29). -/
theorem State.nextId_pred (h : 1 < s.nextId) : s.live (s.nextId - 1) ∨ s.pooled (s.nextId - 1) := by
  have hm := foldl_max_mem (s.seg.map Prod.fst ++ s.free.map BitVec.toNat) 0
  have he : s.nextId - 1 = (s.seg.map Prod.fst ++ s.free.map BitVec.toNat).foldl max 0 := by
    unfold State.nextId; omega
  rcases hm with hm | hm
  · rw [hm] at he; omega
  · rw [← he] at hm
    rcases List.mem_append.mp hm with hm | hm
    · obtain ⟨e, hes, hee⟩ := List.mem_map.mp hm
      exact .inl (hee ▸ Assoc.find_isSome_of_mem hes)
    · exact .inr hm

/-- An identifier is live as a number exactly when some word names it and its segment is mapped. -/
theorem State.mapped_iff_live (id : Word) : s.mapped id = true ↔ s.live id.toNat := Iff.rfl

theorem State.mem_free_iff_pooled (id : Word) : id ∈ s.free ↔ s.pooled id.toNat := by
  simp only [State.pooled, List.mem_map]
  refine ⟨fun h => ⟨id, h, rfl⟩, ?_⟩
  rintro ⟨j, hj, he⟩
  rwa [← BitVec.eq_of_toNat_eq he]

/-- Everything `Alloc` can do (R113): refuse for want of storage, reuse a free identifier, issue `next_id`, or refuse for
want of an identifier. -/
theorem State.alloc_cases (n : Nat) :
    (s.capacity n = false ∧ s.alloc n = .error .resourceExhausted) ∨
    (s.capacity n = true ∧ ∃ id, pickFree s.reuses s.free = some id ∧ id ∈ s.free ∧
      s.alloc n = .ok (id, { s with
        seg := Assoc.put id.toNat (Segment.zeros n) s.seg, free := s.free.filter (· != id), reuses := s.reuses + 1 })) ∨
    (s.capacity n = true ∧ s.free = [] ∧ s.nextId < 2 ^ 32 ∧
      s.alloc n = .ok (BitVec.ofNat 32 s.nextId, { s with seg := Assoc.put s.nextId (Segment.zeros n) s.seg })) ∨
    (s.capacity n = true ∧ s.free = [] ∧ 2 ^ 32 ≤ s.nextId ∧ s.alloc n = .error .resourceExhausted) := by
  cases hc : s.capacity n with
  | false => exact .inl ⟨rfl, by simp [State.alloc, hc]⟩
  | true =>
    cases hp : pickFree s.reuses s.free with
    | some id => exact .inr (.inl ⟨rfl, id, rfl, pickFree_mem hp, by simp [State.alloc, hc, hp]⟩)
    | none =>
      have hf := pickFree_eq_none hp
      by_cases h : s.nextId < 2 ^ 32
      · exact .inr (.inr (.inl ⟨rfl, hf, h, by simp only [State.alloc, hc, hp, h, if_true]⟩))
      · exact .inr (.inr (.inr ⟨rfl, hf, Nat.not_lt.mp h, by simp only [State.alloc, hc, hp, h, if_true, if_false]⟩))

end Sys2Proof.Machine
end

