-- ==== Sys2Proof/Laws/Encoding.lean ====
section
/-! SUPPORT. The fields of a word as arithmetic on its number, the number of an encoded word, and from both the fields of an
encoded word. -/

namespace Sys2Proof

@[simp] theorem fieldBits_toNat (lsb width : Nat) (w : Word) :
    (fieldBits lsb width w).toNat = w.toNat / 2 ^ lsb % 2 ^ width := by
  simp [fieldBits, BitVec.extractLsb'_toNat, Nat.shiftRight_eq_div_pow]

@[simp] theorem regField_val (lsb : Nat) (w : Word) : (regField lsb w).val = w.toNat / 2 ^ lsb % 8 :=
  fieldBits_toNat lsb 3 w

/-- OP is the word's number divided by 2^28 (R61). -/
theorem op_toNat (w : Word) : (decodeFields w).op.toNat = w.toNat / 2 ^ 28 := by
  have := w.isLt
  simp only [decodeFields, fieldBits_toNat]
  omega

/-- A register field is determined by its number. -/
theorem regField_eq {lsb : Nat} {w : Word} {r : Reg} (h : w.toNat / 2 ^ lsb % 8 = r.val) : regField lsb w = r :=
  Fin.ext ((regField_val lsb w).trans h)

/-- `Encode3R` does not wrap (R72). -/
theorem encode3R_toNat {op : Nat} (hop : op < 16) (a b c : Reg) :
    (encode3R op a b c).toNat = op * 2 ^ 28 + a.val * 2 ^ 6 + b.val * 2 ^ 3 + c.val := by
  have ha := a.isLt; have hb := b.isLt; have hc := c.isLt
  simp only [encode3R, BitVec.toNat_ofNat]
  omega

/-- `EncodeLV` does not wrap (R72). -/
theorem encodeLV_toNat (l : Reg) (v : Word) :
    (encodeLV l v).toNat = 13 * 2 ^ 28 + l.val * 2 ^ 25 + v.toNat % 2 ^ 25 := by
  have hl := l.isLt
  simp only [encodeLV, BitVec.toNat_ofNat]
  omega

/-- The fields of a word made by `Encode3R`. -/
theorem fields_encode3R {op : Nat} (hop : op < 16) (a b c : Reg) :
    (decodeFields (encode3R op a b c)).op.toNat = op ∧ regField 6 (encode3R op a b c) = a ∧
      regField 3 (encode3R op a b c) = b ∧ regField 0 (encode3R op a b c) = c := by
  have ha := a.isLt; have hb := b.isLt; have hc := c.isLt
  refine ⟨?_, regField_eq ?_, regField_eq ?_, regField_eq ?_⟩
  · rw [op_toNat, encode3R_toNat hop]; omega
  all_goals rw [encode3R_toNat hop]; omega

/-- The fields of a word made by `EncodeLV`. -/
theorem fields_encodeLV (l : Reg) (v : Word) :
    (decodeFields (encodeLV l v)).op.toNat = 13 ∧ regField 25 (encodeLV l v) = l ∧
      (fieldBits 0 25 (encodeLV l v)).toNat = v.toNat % 2 ^ 25 := by
  have hl := l.isLt
  refine ⟨?_, regField_eq ?_, ?_⟩
  · rw [op_toNat, encodeLV_toNat]; omega
  · rw [encodeLV_toNat]; omega
  · rw [fieldBits_toNat, encodeLV_toNat]; omega

/-- Zero-extending 25 bits keeps their number. -/
theorem vl_setWidth_toNat (w : Word) : ((fieldBits 0 25 w).setWidth 32).toNat = w.toNat % 2 ^ 25 := by
  have := w.isLt
  simp only [BitVec.toNat_setWidth, fieldBits_toNat]
  omega

end Sys2Proof
end

