-- ==== Sys2Proof/Laws/Exec.lean ====
section
/-! SUPPORT. Everything an instruction and a step can do, said once: `exec_effect` and `step_cases`. A claim about every
instruction takes the effects apart and does not unfold `exec` again. -/

namespace Sys2Proof.Machine

/-- The paths of the meanings: for each, the condition it is taken under and the next state (R100 to R123, R67). -/
inductive Effect (s : State) : Instr → State → Prop where
  | cmovMove (a b c : Reg) (h : s.readReg c ≠ 0#32) :
      Effect s (.cmov a b c) (s.writeReg a (s.readReg b)).advance
  | cmovKeep (a b c : Reg) (h : s.readReg c = 0#32) : Effect s (.cmov a b c) s.advance
  | sloadAbsent (a b c : Reg) (h : s.segment? (s.readReg b) = none) :
      Effect s (.sload a b c) (s.raise .unmappedSegment)
  | sloadPast (a b c : Reg) (g : Segment) (h : s.segment? (s.readReg b) = some g) (hl : g.len ≤ (s.readReg c).toNat) :
      Effect s (.sload a b c) (s.raise .outOfBounds)
  | sload (a b c : Reg) (g : Segment) (v : Word) (h : s.segment? (s.readReg b) = some g)
      (hl : (s.readReg c).toNat < g.len) (hr : g.read (s.readReg c).toNat = some v) :
      Effect s (.sload a b c) (s.writeReg a v).advance
  | sstoreAbsent (a b c : Reg) (h : s.segment? (s.readReg a) = none) :
      Effect s (.sstore a b c) (s.raise .unmappedSegment)
  | sstorePast (a b c : Reg) (g : Segment) (h : s.segment? (s.readReg a) = some g) (hl : g.len ≤ (s.readReg b).toNat) :
      Effect s (.sstore a b c) (s.raise .outOfBounds)
  | sstore (a b c : Reg) (g g' : Segment) (h : s.segment? (s.readReg a) = some g)
      (hl : (s.readReg b).toNat < g.len) (hw : g.write (s.readReg b).toNat (s.readReg c) = some g') :
      Effect s (.sstore a b c) (State.advance { s with seg := Assoc.put (s.readReg a).toNat g' s.seg })
  | add (a b c : Reg) : Effect s (.add a b c) (s.writeReg a (sumWord (s.readReg b) (s.readReg c))).advance
  | mul (a b c : Reg) : Effect s (.mul a b c) (s.writeReg a (productWord (s.readReg b) (s.readReg c))).advance
  | divZero (a b c : Reg) (h : s.readReg c = 0#32) : Effect s (.div a b c) (s.raise .divideByZero)
  | div (a b c : Reg) (h : s.readReg c ≠ 0#32) :
      Effect s (.div a b c)
        (s.writeReg a (BitVec.ofNat 32 ((s.readReg b).toNat / (s.readReg c).toNat))).advance
  | nand (a b c : Reg) : Effect s (.nand a b c) (s.writeReg a (nandWord (s.readReg b) (s.readReg c))).advance
  | halt : Effect s .halt s.stop
  | mapNoStorage (b c : Reg) (h : s.capacity (s.readReg c).toNat = false) :
      Effect s (.map b c) (s.raise .resourceExhausted)
  | mapReuse (b c : Reg) (id : Word) (h : s.capacity (s.readReg c).toNat = true)
      (hp : pickFree s.reuses s.free = some id) (hid : id ∈ s.free) :
      Effect s (.map b c) (State.writeReg { s with
        seg := Assoc.put id.toNat (Segment.zeros (s.readReg c).toNat) s.seg
        free := s.free.filter (· != id), reuses := s.reuses + 1 } b id).advance
  | mapFresh (b c : Reg) (h : s.capacity (s.readReg c).toNat = true) (hf : s.free = []) (hn : s.nextId < 2 ^ 32) :
      Effect s (.map b c) (State.writeReg { s with
        seg := Assoc.put s.nextId (Segment.zeros (s.readReg c).toNat) s.seg } b (BitVec.ofNat 32 s.nextId)).advance
  | mapNoIdentifier (b c : Reg) (h : s.capacity (s.readReg c).toNat = true) (hf : s.free = [])
      (hn : 2 ^ 32 ≤ s.nextId) : Effect s (.map b c) (s.raise .resourceExhausted)
  | unmapZero (c : Reg) (h : s.readReg c = 0#32) : Effect s (.unmap c) (s.raise .unmapSegmentZero)
  | unmapAbsent (c : Reg) (h : s.readReg c ≠ 0#32) (hm : s.mapped (s.readReg c) = false) :
      Effect s (.unmap c) (s.raise .unmappedSegment)
  | unmap (c : Reg) (h : s.readReg c ≠ 0#32) (hm : s.mapped (s.readReg c) = true) :
      Effect s (.unmap c) (s.release (s.readReg c)).advance
  | outLarge (c : Reg) (h : 255 < (s.readReg c).toNat) : Effect s (.out c) (s.raise .invalidOutput)
  | outWait (c : Reg) (h : (s.readReg c).toNat ≤ 255) (hr : s.sinkReady = false) : Effect s (.out c) s
  | out (c : Reg) (h : (s.readReg c).toNat ≤ 255) (hr : s.sinkReady = true) :
      Effect s (.out c) (s.emit ((s.readReg c).setWidth 8)).advance
  | inWait (c : Reg) (h : s.input = []) : Effect s (.inp c) s
  | inByte (c : Reg) (v : Byte) (rest : List InEvent) (h : s.input = .byte v :: rest) :
      Effect s (.inp c) (State.writeReg { s with input := rest } c (wordOfByte v)).advance
  | inEof (c : Reg) (rest : List InEvent) (h : s.input = .eof :: rest) :
      Effect s (.inp c) (State.writeReg { s with input := rest } c endOfStream).advance
  | inFailure (c : Reg) (rest : List InEvent) (h : s.input = .failure :: rest) :
      Effect s (.inp c) (State.raise { s with input := rest } .inputFailure)
  | loadpAbsent (b c : Reg) (h : s.segment? (s.readReg b) = none) :
      Effect s (.loadp b c) (s.raise .unmappedSegment)
  | loadpJump (b c : Reg) (g : Segment) (h : s.segment? (s.readReg b) = some g) (hb : s.readReg b = 0#32) :
      Effect s (.loadp b c) (s.setPc (s.readReg c))
  | loadp (b c : Reg) (g : Segment) (h : s.segment? (s.readReg b) = some g) (hb : s.readReg b ≠ 0#32)
      (hc : s.capacityForProgram g.len = true) : Effect s (.loadp b c) ((s.setProgram g).setPc (s.readReg c))
  | loadpNoStorage (b c : Reg) (g : Segment) (h : s.segment? (s.readReg b) = some g) (hb : s.readReg b ≠ 0#32)
      (hc : s.capacityForProgram g.len = false) : Effect s (.loadp b c) (s.raise .resourceExhausted)
  | loadv (l : Reg) (v : Word) : Effect s (.loadv l v) (s.writeReg l (immediate v)).advance
  | invalid14 : Effect s .invalid14 (s.raise .invalidOpcode)
  | invalid15 : Effect s .invalid15 (s.raise .invalidOpcode)

/-- An effect whose condition holds is what the instruction does. -/
theorem effect_exec {i : Instr} {s t : State} (e : Effect s i t) : exec i s = .next t := by
  cases e with
  | cmovMove a b c h => simp [exec, execCmov, conditionHolds, h]
  | cmovKeep a b c h => simp [exec, execCmov, conditionHolds, h]
  | sloadAbsent a b c h => simp only [exec, execSload, State.memRead, h]
  | sloadPast a b c g h hl => simp only [exec, execSload, State.memRead, h, Segment.read_ge hl]
  | sload a b c g v h hl hr => simp only [exec, execSload, State.memRead, h, hr]
  | sstoreAbsent a b c h => simp only [exec, execSstore, State.memWrite, h]
  | sstorePast a b c g h hl => simp only [exec, execSstore, State.memWrite, h, Segment.write_ge hl]
  | sstore a b c g g' h hl hw => simp only [exec, execSstore, State.memWrite, h, hw]
  | add a b c => rfl
  | mul a b c => rfl
  | divZero a b c h => simp only [exec, execDiv, quotientWord?, h, if_true]
  | div a b c h => simp only [exec, execDiv, quotientWord?, h, if_false]
  | nand a b c => rfl
  | halt => rfl
  | mapNoStorage b c h => simp [exec, execMap, State.alloc, h]
  | mapReuse b c id h hp hid => simp only [exec, execMap, State.alloc, h, hp, if_true]
  | mapFresh b c h hf hn => simp only [exec, execMap, State.alloc, h, hf, hn, pickFree, if_true]
  | mapNoIdentifier b c h hf hn =>
    simp only [exec, execMap, State.alloc, h, hf, Nat.not_lt.mpr hn, pickFree, if_true, if_false]
  | unmapZero c h => simp only [exec, execUnmap, h, if_true]
  | unmapAbsent c h hm => simp [exec, execUnmap, h, hm]
  | unmap c h hm => simp only [exec, execUnmap, h, hm, if_true, if_false]
  | outLarge c h => simp only [exec, execOut, outputByte?, Nat.not_le.mpr h, if_false]
  | outWait c h hr => simp [exec, execOut, outputByte?, h, hr]
  | out c h hr => simp only [exec, execOut, outputByte?, h, hr, if_true]
  | inWait c h => simp only [exec, execIn, State.recv, h]
  | inByte c v rest h => simp only [exec, execIn, State.recv, h]
  | inEof c rest h => simp only [exec, execIn, State.recv, h]
  | inFailure c rest h => simp only [exec, execIn, State.recv, h]
  | loadpAbsent b c h => simp only [exec, execLoadp, h]
  | loadpJump b c g h hb => simp only [exec, execLoadp, h]; simp only [hb, if_true]
  | loadp b c g h hb hc => simp only [exec, execLoadp, h, hb, hc, if_true, if_false]
  | loadpNoStorage b c g h hb hc => simp [exec, execLoadp, h, hb, hc]
  | loadv l v => rfl
  | invalid14 => rfl
  | invalid15 => rfl

/-- Every instruction has an effect in every state. -/
theorem effect_exists (i : Instr) (s : State) : ∃ t, Effect s i t := by
  cases i with
  | cmov a b c =>
    by_cases h : s.readReg c = 0#32
    · exact ⟨_, .cmovKeep a b c h⟩
    · exact ⟨_, .cmovMove a b c h⟩
  | sload a b c =>
    rcases s.memRead_cases (s.readReg b) (s.readReg c) with ⟨h, -⟩ | ⟨g, h, hl, -⟩ | ⟨g, v, h, hl, hr, -⟩
    · exact ⟨_, .sloadAbsent a b c h⟩
    · exact ⟨_, .sloadPast a b c g h hl⟩
    · exact ⟨_, .sload a b c g v h hl hr⟩
  | sstore a b c =>
    rcases s.memWrite_cases (s.readReg a) (s.readReg b) (s.readReg c) with ⟨h, -⟩ | ⟨g, h, hl, -⟩ | ⟨g, g', h, hl, hw, -⟩
    · exact ⟨_, .sstoreAbsent a b c h⟩
    · exact ⟨_, .sstorePast a b c g h hl⟩
    · exact ⟨_, .sstore a b c g g' h hl hw⟩
  | add a b c => exact ⟨_, .add a b c⟩
  | mul a b c => exact ⟨_, .mul a b c⟩
  | div a b c =>
    by_cases h : s.readReg c = 0#32
    · exact ⟨_, .divZero a b c h⟩
    · exact ⟨_, .div a b c h⟩
  | nand a b c => exact ⟨_, .nand a b c⟩
  | halt => exact ⟨_, .halt⟩
  | map b c =>
    rcases s.alloc_cases (s.readReg c).toNat with ⟨h, -⟩ | ⟨h, id, hp, hid, -⟩ | ⟨h, hf, hn, -⟩ | ⟨h, hf, hn, -⟩
    · exact ⟨_, .mapNoStorage b c h⟩
    · exact ⟨_, .mapReuse b c id h hp hid⟩
    · exact ⟨_, .mapFresh b c h hf hn⟩
    · exact ⟨_, .mapNoIdentifier b c h hf hn⟩
  | unmap c =>
    by_cases h : s.readReg c = 0#32
    · exact ⟨_, .unmapZero c h⟩
    · cases hm : s.mapped (s.readReg c) with
      | false => exact ⟨_, .unmapAbsent c h hm⟩
      | true => exact ⟨_, .unmap c h hm⟩
  | out c =>
    by_cases h : (s.readReg c).toNat ≤ 255
    · cases hr : s.sinkReady with
      | false => exact ⟨_, .outWait c h hr⟩
      | true => exact ⟨_, .out c h hr⟩
    · exact ⟨_, .outLarge c (Nat.not_le.mp h)⟩
  | inp c =>
    match hi : s.input with
    | [] => exact ⟨_, .inWait c hi⟩
    | .byte v :: rest => exact ⟨_, .inByte c v rest hi⟩
    | .eof :: rest => exact ⟨_, .inEof c rest hi⟩
    | .failure :: rest => exact ⟨_, .inFailure c rest hi⟩
  | loadp b c =>
    cases h : s.segment? (s.readReg b) with
    | none => exact ⟨_, .loadpAbsent b c h⟩
    | some g =>
      by_cases hb : s.readReg b = 0#32
      · exact ⟨_, .loadpJump b c g h hb⟩
      · cases hc : s.capacityForProgram g.len with
        | false => exact ⟨_, .loadpNoStorage b c g h hb hc⟩
        | true => exact ⟨_, .loadp b c g h hb hc⟩
  | loadv l v => exact ⟨_, .loadv l v⟩
  | invalid14 => exact ⟨_, .invalid14⟩
  | invalid15 => exact ⟨_, .invalid15⟩

/-- Every instruction answers a next state, and it is that of one of its effects. -/
theorem exec_total (i : Instr) (s : State) : ∃ t, exec i s = .next t ∧ Effect s i t := by
  obtain ⟨t, e⟩ := effect_exists i s
  exact ⟨t, effect_exec e, e⟩

/-- Everything an instruction can do. -/
theorem exec_effect {i : Instr} {s t : State} (h : exec i s = .next t) : Effect s i t := by
  obtain ⟨t', h', he⟩ := exec_total i s
  rw [h'] at h
  injection h with h
  exact h ▸ he

/-- Everything a step can do (R80, R85). -/
theorem step_cases {s t : State} (h : step s = .next t) :
    (s.status ≠ .running ∧ t = s) ∨
    (s.status = .running ∧ s.fetch = some (.error .pcOutOfRange) ∧ t = s.raise .pcOutOfRange) ∨
    (s.status = .running ∧ ∃ w, s.wordAt 0#32 s.pc = some w ∧ exec (decode w) s = .next t) := by
  unfold step engineStep at h
  cases hs : s.status with
  | halted => simp only [hs] at h; injection h with h; exact .inl ⟨by simp, h.symm⟩
  | fatal k => simp only [hs] at h; injection h with h; exact .inl ⟨by simp, h.symm⟩
  | running =>
    simp only [hs] at h
    rcases s.fetch_cases with ⟨-, hf⟩ | ⟨g, -, -, hf⟩ | ⟨g, w, hg, -, hr, hf⟩
    · simp [hf] at h
    · simp only [hf] at h; injection h with h; exact .inr (.inl ⟨rfl, hf, h.symm⟩)
    · simp only [hf] at h
      exact .inr (.inr ⟨rfl, w, by rw [State.wordAt_of_segment hg, hr], h⟩)

end Sys2Proof.Machine
end

