-- ==== Sys2Proof/Laws/PerInstr.lean ====
section
/-! SUPPORT. Statements for all instructions, one lemma per constructor: family `RoundTrip`, a well-formed instruction is read
back from its word (spec/30_encoding.md R72). -/

namespace Sys2Proof.Laws

/-- Decoding the word of a well-formed instruction gives it back. -/
def RoundTrip.Statement (i : Instr) : Prop := i.WellFormed = true → decode (encode i) = i

/-- A three-register word decodes to what its fields select. -/
theorem RoundTrip.decode_encode3R {op : Nat} (hop : op < 16) (a b c : Reg) :
    decode (encode3R op a b c) = instrOfFields
      { op := BitVec.ofNat 4 op, ra := a, rb := b, rc := c, rl := regField 25 (encode3R op a b c),
        vl := fieldBits 0 25 (encode3R op a b c) } := by
  obtain ⟨ho, ha, hb, hc⟩ := fields_encode3R hop a b c
  have hop' : (decodeFields (encode3R op a b c)).op = BitVec.ofNat 4 op :=
    BitVec.eq_of_toNat_eq (by rw [ho, BitVec.toNat_ofNat]; omega)
  unfold decode
  congr 1
  simp only [decodeFields] at hop' ⊢
  rw [hop', ha, hb, hc]

theorem RoundTrip.cmov (a b c : Reg) : RoundTrip.Statement (.cmov a b c) := fun _ =>
  (RoundTrip.decode_encode3R (op := 0) (by omega) a b c).trans rfl
theorem RoundTrip.sload (a b c : Reg) : RoundTrip.Statement (.sload a b c) := fun _ =>
  (RoundTrip.decode_encode3R (op := 1) (by omega) a b c).trans rfl
theorem RoundTrip.sstore (a b c : Reg) : RoundTrip.Statement (.sstore a b c) := fun _ =>
  (RoundTrip.decode_encode3R (op := 2) (by omega) a b c).trans rfl
theorem RoundTrip.add (a b c : Reg) : RoundTrip.Statement (.add a b c) := fun _ =>
  (RoundTrip.decode_encode3R (op := 3) (by omega) a b c).trans rfl
theorem RoundTrip.mul (a b c : Reg) : RoundTrip.Statement (.mul a b c) := fun _ =>
  (RoundTrip.decode_encode3R (op := 4) (by omega) a b c).trans rfl
theorem RoundTrip.div (a b c : Reg) : RoundTrip.Statement (.div a b c) := fun _ =>
  (RoundTrip.decode_encode3R (op := 5) (by omega) a b c).trans rfl
theorem RoundTrip.nand (a b c : Reg) : RoundTrip.Statement (.nand a b c) := fun _ =>
  (RoundTrip.decode_encode3R (op := 6) (by omega) a b c).trans rfl
theorem RoundTrip.halt : RoundTrip.Statement .halt := fun _ =>
  (RoundTrip.decode_encode3R (op := 7) (by omega) 0 0 0).trans rfl
theorem RoundTrip.map (b c : Reg) : RoundTrip.Statement (.map b c) := fun _ =>
  (RoundTrip.decode_encode3R (op := 8) (by omega) 0 b c).trans rfl
theorem RoundTrip.unmap (c : Reg) : RoundTrip.Statement (.unmap c) := fun _ =>
  (RoundTrip.decode_encode3R (op := 9) (by omega) 0 0 c).trans rfl
theorem RoundTrip.out (c : Reg) : RoundTrip.Statement (.out c) := fun _ =>
  (RoundTrip.decode_encode3R (op := 10) (by omega) 0 0 c).trans rfl
theorem RoundTrip.inp (c : Reg) : RoundTrip.Statement (.inp c) := fun _ =>
  (RoundTrip.decode_encode3R (op := 11) (by omega) 0 0 c).trans rfl
theorem RoundTrip.loadp (b c : Reg) : RoundTrip.Statement (.loadp b c) := fun _ =>
  (RoundTrip.decode_encode3R (op := 12) (by omega) 0 b c).trans rfl

theorem RoundTrip.loadv (l : Reg) (v : Word) : RoundTrip.Statement (.loadv l v) := by
  intro h
  have hv : v.toNat < 2 ^ 25 := by simpa [Instr.WellFormed] using h
  obtain ⟨ho, hl, hvl⟩ := fields_encodeLV l v
  have hval : (fieldBits 0 25 (encodeLV l v)).setWidth 32 = v := BitVec.eq_of_toNat_eq (by
    rw [vl_setWidth_toNat, encodeLV_toNat]; omega)
  change instrOfFields (decodeFields (encodeLV l v)) = _
  simp only [instrOfFields, ho]
  simp only [decodeFields, hl, hval]

theorem RoundTrip.invalid14 : RoundTrip.Statement .invalid14 := fun _ =>
  (RoundTrip.decode_encode3R (op := 14) (by omega) 0 0 0).trans rfl
theorem RoundTrip.invalid15 : RoundTrip.Statement .invalid15 := fun _ =>
  (RoundTrip.decode_encode3R (op := 15) (by omega) 0 0 0).trans rfl

end Sys2Proof.Laws
end

