-- ==== Sys2Proof/Laws/Step.lean ====
section
/-! SUPPORT. Placing an instruction for the next fetch does what it says: the next step runs exactly it. -/

namespace Sys2Proof.Machine

/-- A placed word is the word the next fetch gives, and the machine is running. -/
theorem State.placeWord_spec (s : State) (w : Word) :
    (s.placeWord w).status = .running ∧ (s.placeWord w).wordAt 0#32 (s.placeWord w).pc = some w := by
  refine ⟨rfl, ?_⟩
  have place : ∀ (p : Word) (old : Segment) (t : State),
      t.seg = Assoc.put 0 (({ old with len := max old.len (p.toNat + 1) } : Segment).write p.toNat w |>.getD
        { old with len := max old.len (p.toNat + 1) }) s.seg → t.wordAt 0#32 p = some w := by
    intro p old t ht
    obtain ⟨g', hw, -, hr, -⟩ := Segment.write_spec
      (g := { old with len := max old.len (p.toNat + 1) }) (i := p.toNat) (Nat.lt_of_lt_of_le (Nat.lt_succ_self _) (le_max_right _ _)) w
    rw [hw, Option.getD_some] at ht
    have := State.segment_put (s := s) (t := t) (id := 0#32) (g := g') ht 0#32
    rw [if_pos rfl] at this
    rw [State.wordAt_of_segment this, hr]
  exact place _ _ _ rfl

/-- The step after `withFetchWord` runs the instruction of the given bits. -/
theorem step_withFetchWord (s : State) (nbits w : Nat) :
    step (s.withFetchWord nbits w) =
      exec (decode (BitVec.ofNat 32 (w % 2 ^ nbits))) (s.withFetchWord nbits w) := by
  obtain ⟨h1, h2⟩ := s.placeWord_spec (BitVec.ofNat 32 (w % 2 ^ nbits))
  unfold step engineStep State.withFetchWord
  simp only [h1, State.fetch_of_wordAt h2]

end Sys2Proof.Machine
end

