-- ==== Sys2Proof/Tests/Slice0.lean ====
section
/-! SUPPORT. The model's own tests: a decoded word per instruction, the checks of well-formedness, at most two single steps per
instruction with results from spec/95_test_vectors.md, and a witness of the hypotheses of every statement that has some. -/

namespace Sys2Proof.Tests

open Sys2Proof Sys2Proof.Machine

/-! ### Helpers -/

/-- The next state of an outcome, if it is one. -/
def after : Host.Outcome State Fault Refusal → Option State
  | .next s => some s
  | .fault _ => none
  | .refused _ => none

/-- A running state: segment 0 holds the ten words `D0000048` to `00000000`, segment 1 holds 7, 8, 9 (section 3.2 of
spec/95_test_vectors.md). -/
def demo (x : Vector Word 8) : State :=
  { State.reset with
    x := x
    seg := [(0, Segment.ofWords [0xD0000048, 0xE0000000, 0, 0, 0, 0, 0, 0, 0, 0]), (1, Segment.ofWords [7, 8, 9])] }

/-- The state after one instruction given by its word. -/
def runWord (w : Word) (s : State) : Option State := after (exec (decode w) s)

/-! ### Well-formedness: an ill-formed term for each check -/

/-- R70: "An immediate above 0x01FFFFFF does not fit". -/
theorem test_wellFormed_refuses_long_immediate : (Instr.loadv 0 0x02000000).WellFormed = false := by decide
theorem test_wellFormed_accepts_largest_immediate : (Instr.loadv 7 0x01FFFFFF).WellFormed = true := by decide
/-- Memory out of order, a listed zero word, a word past the end: no canonical form. -/
theorem test_memory_wf_refuses :
    Memory.wf [(1, Segment.zeros 1), (0, Segment.zeros 1)] = false ∧
    Memory.wf [(0, { len := 1, cells := [(0, 0)] })] = false ∧
    Memory.wf [(0, { len := 1, cells := [(1, 5)] })] = false ∧
    Memory.wf [(2 ^ 32, Segment.zeros 0)] = false ∧
    Memory.wf [(0, Segment.zeros (2 ^ 32))] = false := by decide

/-! ### Decoding: a word per constructor, written from the encodings of R61 and R65 (spec/95_test_vectors.md sections 2, 3) -/

theorem test_decode_cmov : decode 0x00000053 = .cmov 1 2 3 := by decide
theorem test_decode_sload : decode 0x12345678 = .sload 1 7 0 := by decide
theorem test_decode_sstore : decode 0x20000053 = .sstore 1 2 3 := by decide
theorem test_decode_add : decode 0x3FFFFE53 = .add 1 2 3 := by decide
theorem test_decode_mul : decode 0x40000192 = .mul 6 2 2 := by decide
theorem test_decode_div : decode 0x500000D3 = .div 3 2 3 := by decide
theorem test_decode_nand : decode 0x600000FF = .nand 3 7 7 := by decide
theorem test_decode_halt : decode 0x7ABCDEF0 = .halt := by decide
theorem test_decode_map : decode 0x89ABCDEF = .map 5 7 := by decide
theorem test_decode_unmap : decode 0x90000004 = .unmap 4 := by decide
theorem test_decode_out : decode 0xA0000002 = .out 2 := by decide
theorem test_decode_in : decode 0xB0000003 = .inp 3 := by decide
theorem test_decode_loadp : decode 0xC000003C = .loadp 7 4 := by decide
theorem test_decode_loadv : decode 0xDB234567 = .loadv 5 0x1234567 := by decide
theorem test_decode_invalid14 : decode 0xE0000000 = .invalid14 := by decide
theorem test_decode_invalid15 : decode 0xFFFFFFFF = .invalid15 := by decide
/-- The six fields of `89ABCDEF` (section 2). -/
theorem test_decodeFields :
    decodeFields 0x89ABCDEF = { op := 8, ra := 7, rb := 5, rc := 7, rl := 4, vl := 0x1ABCDEF } := by decide
/-- The first word of program P0 as image bytes (section 4). -/
theorem test_decodeBytes :
    (match decodeBytes [0xD0, 0x00, 0x00, 0x48, 0xA0] with
      | .ok (i, rest) => decide (i = .loadv 0 72) && decide (rest = [0xA0])
      | .error _ => false) = true := by decide
theorem test_decodeTableWord : decodeTableWord 32 0xC000000A = some (.loadp 1 2) := by decide

/-! ### Single steps (spec/95_test_vectors.md section 3) -/

theorem test_cmov_moves :
    (runWord 0x00000053 (demo #v[0, 5, 9, 0x80000000, 0, 0, 0, 0])).map (·.readReg 1) = some 9 := by decide
theorem test_cmov_keeps :
    (runWord 0x00000053 (demo #v[0, 5, 9, 0, 0, 0, 0, 0])).map (fun t => (t.readReg 1, t.pc)) = some (5, 1) := by decide
theorem test_sload_same_register :
    (runWord 0x10000093 (demo #v[0, 0, 1, 0, 0, 0, 0, 0])).map (·.readReg 2) = some 7 := by decide
theorem test_sload_index_is_length :
    (runWord 0x10000053 (demo #v[0, 4, 1, 3, 0, 0, 0, 0])).map (fun t => (t.status, t.readReg 1, t.pc)) =
      some (.fatal .outOfBounds, 4, 0) := by decide
theorem test_sstore_one_register :
    (runWord 0x20000049 (demo #v[0, 1, 0, 0, 0, 0, 0, 0])).map (fun t => (t.wordAt 1 0, t.wordAt 1 1, t.wordAt 1 2)) =
      some (some 7, some 1, some 9) := by decide
theorem test_sstore_unmapped :
    (runWord 0x20000053 (demo #v[0, 2, 0, 1, 0, 0, 0, 0])).map (·.status) = some (.fatal .unmappedSegment) := by decide
theorem test_add_wraps :
    (runWord 0x30000053 (demo #v[0, 0, 0xFFFFFFFF, 2, 0, 0, 0, 0])).map (·.readReg 1) = some 1 := by decide
theorem test_add_doubles :
    (runWord 0x30000049 (demo #v[0, 0x80000001, 0, 0, 0, 0, 0, 0])).map (·.readReg 1) = some 2 := by decide
theorem test_mul_low_word :
    (runWord 0x40000053 (demo #v[0, 0, 0x12345678, 0x9ABCDEF0, 0, 0, 0, 0])).map (·.readReg 1) =
      some 0x242D2080 := by decide
theorem test_mul_all_ones :
    (runWord 0x40000053 (demo #v[0, 0, 0xFFFFFFFF, 0xFFFFFFFF, 0, 0, 0, 0])).map (·.readReg 1) = some 1 := by decide
theorem test_div_unsigned :
    (runWord 0x50000053 (demo #v[0, 0, 0xFFFFFFFF, 2, 0, 0, 0, 0])).map (·.readReg 1) = some 0x7FFFFFFF := by decide
theorem test_div_by_zero :
    (runWord 0x50000053 (demo #v[0, 0x55555555, 0xA, 0, 0, 0, 0, 0])).map (fun t => (t.status, t.readReg 1, t.pc)) =
      some (.fatal .divideByZero, 0x55555555, 0) := by decide
theorem test_nand :
    (runWord 0x60000053 (demo #v[0, 0, 0xDEADBEEF, 0x0F0F0F0F, 0, 0, 0, 0])).map (·.readReg 1) =
      some 0xF1F2F1F0 := by decide
theorem test_nand_complement :
    (runWord 0x60000049 (demo #v[0, 0x01FFFFFF, 0, 0, 0, 0, 0, 0])).map (·.readReg 1) = some 0xFE000000 := by decide
theorem test_halt :
    runWord 0x7FFFFFFF (demo #v[0, 0, 0, 0, 0, 0, 0, 0]) =
      some { demo #v[0, 0, 0, 0, 0, 0, 0, 0] with status := .halted } := by decide
theorem test_map_fresh :
    (runWord 0x80000012 (demo #v[0, 0, 3, 0, 0, 0, 0, 0])).map (fun t => (t.readReg 2, t.lenOf 2, t.wordAt 2 2, t.free)) =
      some (2, some 3, some 0, []) := by decide
/-- "every policy" takes the one free identifier. -/
theorem test_map_reuses :
    (runWord 0x80000013 { demo #v[0, 0, 0, 2, 0, 0, 0, 0] with free := [2] }).map
      (fun t => (t.readReg 2, t.lenOf 2, t.free)) = some (2, some 2, []) := by decide
theorem test_unmap :
    (runWord 0x90000004 (demo #v[0, 0, 0, 0, 1, 0, 0, 0])).map (fun t => (t.mapped 1, t.free, t.readReg 4)) =
      some (false, [1], 1) := by decide
theorem test_unmap_zero :
    (runWord 0x90000004 (demo #v[0, 0, 0, 0, 0, 0, 0, 0])).map (fun t => (t.status, t.mapped 0, t.free)) =
      some (.fatal .unmapSegmentZero, true, []) := by decide
theorem test_out_emits :
    (runWord 0xA0000000 (demo #v[0xFF, 0, 0, 0, 0, 0, 0, 0])).map (·.out) = some [0xFF] := by decide
theorem test_out_too_large :
    (runWord 0xA0000000 (demo #v[0x100, 0, 0, 0, 0, 0, 0, 0])).map (fun t => (t.status, t.out)) =
      some (.fatal .invalidOutput, []) := by decide
theorem test_in_byte :
    (runWord 0xB0000003 { demo #v[0, 0, 0, 0xDEADBEEF, 0, 0, 0, 0] with input := [.byte 0xFF, .eof] }).map
      (fun t => (t.readReg 3, t.input)) = some (0xFF, [.eof]) := by decide
theorem test_in_failure :
    (runWord 0xB0000003 { demo #v[0, 0, 0, 0xDEADBEEF, 0, 0, 0, 0] with input := [.failure] }).map
      (fun t => (t.status, t.readReg 3)) = some (.fatal .inputFailure, 0xDEADBEEF) := by decide
theorem test_loadp_copies :
    (runWord 0xC000000A (demo #v[0, 1, 2, 0, 0, 0, 0, 0])).map
      (fun t => (t.pc, t.lenOf 0, t.wordAt 0 2, t.wordAt 1 2)) = some (2, some 3, some 9, some 9) := by decide
theorem test_loadp_unmapped :
    (runWord 0xC000000A (demo #v[0, 5, 0, 0, 0, 0, 0, 0])).map (fun t => (t.status, t.pc, t.lenOf 0)) =
      some (.fatal .unmappedSegment, 0, some 10) := by decide
theorem test_loadv_not_sign_extended :
    (runWord 0xDFFFFFFF (demo #v[0, 0, 0, 0, 0, 0, 0, 0xFFFFFFFF])).map (·.readReg 7) = some 0x01FFFFFF := by decide
theorem test_loadv_zero :
    (runWord 0xD6000000 (demo #v[0, 0, 0, 0xDEADBEEF, 0, 0, 0, 0])).map (·.readReg 3) = some 0 := by decide
/-- Section 3.9: `[E0000000]` and the empty image. -/
theorem test_step_invalid :
    after (step (State.reset.withFetchWord 32 0xE0000000)) =
      some { State.reset.withFetchWord 32 0xE0000000 with status := .fatal .invalidOpcode } := by decide
theorem test_step_empty_image : after (step State.reset) = some { State.reset with status := .fatal .pcOutOfRange } := by
  decide
/-- State.reset is R37 with the empty image and no event delivered (the model's choice of the parameters). -/
theorem test_reset_is_empty_boot : State.boot [] [] none = some State.reset := by decide
theorem test_step_first_instruction :
    (after (step (State.reset.withFetchWord 32 0xD0000048))).map (fun t => (t.readReg 0, t.pc)) = some (72, 1) := by decide

/-! ### Witnesses: a state and operands that meet the hypotheses of each statement, clause by clause -/

/-- Registers 0 to 7 hold 0, 1, 2, 3, 255, 256, 9, 10. -/
def numbered : State := demo #v[0, 1, 2, 3, 255, 256, 9, 10]

theorem witness_DecodeOfEncodeIsIdentity : (Instr.loadv 7 0x01FFFFFF).WellFormed = true := by decide
theorem witness_EncodedFieldsReadBack :
    (15 < 16) ∧ (0x01FFFFFF#32).toNat < 2 ^ 25 ∧ (0xCFFFFFFF#32).toNat / 2 ^ 28 ≤ 12 := by decide
theorem witness_OpcodeMapSelectsInstruction :
    0x0FFFFFFF#32 &&& 0xF0000000#32 = 0x00000000#32 ∧ 0x10000000#32 &&& 0xF0000000#32 = 0x10000000#32 ∧
    0x2FFFFFFF#32 &&& 0xF0000000#32 = 0x20000000#32 ∧ 0x30000000#32 &&& 0xF0000000#32 = 0x30000000#32 ∧
    0x4FFFFFFF#32 &&& 0xF0000000#32 = 0x40000000#32 ∧ 0x50000000#32 &&& 0xF0000000#32 = 0x50000000#32 ∧
    0x6FFFFFFF#32 &&& 0xF0000000#32 = 0x60000000#32 ∧ 0x70000000#32 &&& 0xF0000000#32 = 0x70000000#32 ∧
    0x8FFFFFFF#32 &&& 0xF0000000#32 = 0x80000000#32 ∧ 0x90000000#32 &&& 0xF0000000#32 = 0x90000000#32 ∧
    0xAFFFFFFF#32 &&& 0xF0000000#32 = 0xA0000000#32 ∧ 0xB0000000#32 &&& 0xF0000000#32 = 0xB0000000#32 ∧
    0xCFFFFFFF#32 &&& 0xF0000000#32 = 0xC0000000#32 ∧ 0xD0000000#32 &&& 0xF0000000#32 = 0xD0000000#32 ∧
    0xEFFFFFFF#32 &&& 0xF0000000#32 = 0xE0000000#32 ∧ 0xFFFFFFFF#32 &&& 0xF0000000#32 = 0xF0000000#32 := by decide
theorem witness_IgnoredBitsTakeNoPart :
    ((0x3FFFFE53#32).toNat / 2 ^ 28 = (0x30000053#32).toNat / 2 ^ 28 ∧ (0x3FFFFE53#32).toNat / 2 ^ 28 ≤ 12 ∧
      (0x3FFFFE53#32).toNat % 2 ^ 9 = (0x30000053#32).toNat % 2 ^ 9) ∧
    (0x7FFFFFFF#32).toNat / 2 ^ 28 = 7 ∧
    ((0xCFFFFFCA#32).toNat / 2 ^ 28 = 12 ∧ (0xCFFFFFCA#32).toNat % 2 ^ 6 = (0xC000000A#32).toNat % 2 ^ 6) ∧
    (9 ≤ (0xBFFFFFFB#32).toNat / 2 ^ 28 ∧ (0xBFFFFFFB#32).toNat / 2 ^ 28 ≤ 11 ∧
      (0xBFFFFFFB#32).toNat % 2 ^ 3 = (0xB0000003#32).toNat % 2 ^ 3) ∧
    14 ≤ (0xE0000000#32).toNat / 2 ^ 28 := by decide
theorem witness_ByteImageIsBigEndian : [0xD0#8, 0x00#8, 0x00#8].length % 4 ≠ 0 := by decide
theorem witness_StepRunsDecodedInstruction :
    numbered.status = .running ∧ numbered.wordAt 0 numbered.pc = some 0xD0000048 := by decide
theorem witness_FetchPastEndIsFatal :
    State.status { numbered with pc := 10 } = .running ∧ State.lenOf { numbered with pc := 10 } 0 = some 10 ∧
      10 ≤ (State.pc { numbered with pc := 10 }).toNat := by decide
theorem witness_EndedMachineStays : State.ended { numbered with status := .halted } := by decide
theorem witness_InvalidOpcodeIsFatal :
    State.status { numbered with pc := 1 } = .running ∧ State.wordAt { numbered with pc := 1 } 0 1 = some 0xE0000000 ∧
      (0xE0000000#32).toNat / 2 ^ 28 = 14 := by decide
theorem witness_FatalStepChangesOnlyStatus :
    numbered.status = .running ∧
      (after (step { numbered with pc := 1 })).map (·.status) = some (.fatal .invalidOpcode) := by decide
theorem witness_FatalExactlyWhenConditionHolds :
    State.Inv { numbered with pc := 1 } ∧ State.status { numbered with pc := 1 } = .running ∧
      State.fatalCondition { numbered with pc := 1 } = some .invalidOpcode := by decide
/-- A fatal step, a HALT, a LOADP and an ADD. -/
theorem witness_PcUpdateRule :
    numbered.status = .running ∧
    (waits (.div 1 2 0) numbered = false ∧ (after (exec (.div 1 2 0) numbered)).map (·.status) = some (.fatal .divideByZero)) ∧
    (waits .halt numbered = false ∧ (after (exec .halt numbered)).map (·.status) = some .halted) ∧
    (waits (.loadp 0 3) numbered = false ∧ (after (exec (.loadp 0 3) numbered)).map (·.status) = some .running) ∧
    (waits (.add 1 2 3) numbered = false ∧ (after (exec (.add 1 2 3) numbered)).map (·.status) = some .running) := by
  decide
theorem witness_IncrementNeverWraps : numbered.Inv ∧ numbered.wordAt 0 numbered.pc = some 0xD0000048 := by decide
theorem witness_OnlyDestinationIsWritten :
    numbered.status = .running ∧ (after (exec (.add 1 2 3) numbered)).isSome = true ∧ some (2 : Reg) ≠ destination (.add 1 2 3) ∧
      (after (exec (.div 1 2 0) numbered)).map (·.status) = some (.fatal .divideByZero) := by decide
/-- An absent identifier, the index equal to the length, the last word. -/
theorem witness_MemoryAccessChecksAndEffect :
    numbered.mapped 2 = false ∧ (numbered.lenOf 1 = some 3 ∧ 3 ≤ (3#32).toNat) ∧ (numbered.lenOf 1 = some 3 ∧ (2#32).toNat < 3) := by
  decide
theorem witness_CanonicalMemoryIsDetermined :
    Memory.wf numbered.seg = true ∧ ∃ s t : State, s.seg = numbered.seg ∧ t.seg = numbered.seg ∧
      (∀ id, s.lenOf id = t.lenOf id) ∧ (∀ id i, s.wordAt id i = t.wordAt id i) :=
  ⟨by decide, numbered, numbered, rfl, rfl, fun _ => rfl, fun _ _ => rfl⟩
/-- Words with these fields exist: the canonical one, and one with every ignored bit set. -/
theorem witness_HasFields :
    HasFields 0x00000053 0 1 2 3 ∧ HasFields 0x1FFFFE53 1 1 2 3 ∧ HasFields 0x20000053 2 1 2 3 ∧
    HasFields 0x3FFFFE53 3 1 2 3 ∧ HasFields 0x40000053 4 1 2 3 ∧ HasFields 0x5FFFFE53 5 1 2 3 ∧
    HasFields 0x60000053 6 1 2 3 ∧ HasFields 0x89ABCDEF 8 7 5 7 ∧ HasFields 0x9FFFFFFC 9 7 7 4 ∧
    HasFields 0xA0000000 10 0 0 0 ∧ HasFields 0xBFFFFFFB 11 7 7 3 ∧ HasFields 0xC000000A 12 0 1 2 := by
  unfold HasFields; decide
theorem witness_CmovMovesWhenNonzero : numbered.readReg 1 ≠ 0 ∧ numbered.readReg 0 = 0 := by decide
theorem witness_SloadReadsSegmentWord :
    numbered.lenOf (numbered.readReg 2) = none ∧
    (numbered.lenOf (numbered.readReg 1) = some 3 ∧ 3 ≤ (numbered.readReg 3).toNat) ∧
    (numbered.lenOf (numbered.readReg 1) = some 3 ∧ (numbered.readReg 2).toNat < 3) := by decide
theorem witness_SstoreWritesSegmentWord :
    numbered.lenOf (numbered.readReg 2) = none ∧
    (numbered.lenOf (numbered.readReg 1) = some 3 ∧ 3 ≤ (numbered.readReg 3).toNat) ∧
    (numbered.lenOf (numbered.readReg 1) = some 3 ∧ (numbered.readReg 2).toNat < 3) := by decide
theorem witness_DivTruncatesOrFails : numbered.readReg 0 = 0 ∧ numbered.readReg 3 ≠ 0 := by decide
theorem witness_DivisionAtEveryCombination :
    (numbered.readReg 0 = 0 ∧ numbered.readReg 3 ≠ 0) ∧
    (numbered.readReg 2).toNat < (numbered.readReg 3).toNat ∧ (numbered.readReg 3).toNat ≤ (numbered.readReg 3).toNat ∧
    ((demo #v[0xFFFFFFFF, 1, 0x80000000, 0, 0, 0, 0, 0]).readReg 0 = 0xFFFFFFFF ∧
      (demo #v[0xFFFFFFFF, 1, 0x80000000, 0, 0, 0, 0, 0]).readReg 1 = 1 ∧
      (demo #v[0xFFFFFFFF, 1, 0x80000000, 0, 0, 0, 0, 0]).readReg 2 = 0x80000000) := by decide
theorem witness_HaltEndsTheRun : (0x7FFFFFFF#32).toNat / 2 ^ 28 = 7 := by decide
/-- Storage for exactly one more word, and for none. -/
theorem witness_MapCreatesZeroSegment :
    (numbered.Inv ∧ numbered.mapExhausted (numbered.readReg 3).toNat = false) ∧
    (State.Inv { numbered with capWords := some 14 } ∧
      State.mapExhausted { numbered with capWords := some 14 } (numbered.readReg 1).toNat = false ∧
      State.mapExhausted { numbered with capWords := some 14 } (numbered.readReg 2).toNat = true) := by decide
/-- A pool of one, a pool of none, a pool of none with the last identifier issued. -/
theorem witness_AllocatorReusesBeforeFresh :
    State.capacity { numbered with capWords := some 0 } 1 = false ∧
    (0#32 ∉ State.free { numbered with free := [2, 5] } ∧ State.capacity { numbered with free := [2, 5] } 1 = true ∧ State.free { numbered with free := [2, 5] } ≠ []) ∧
    (State.nextId { numbered with seg := [(0, Segment.zeros 1), (2 ^ 32 - 1, Segment.zeros 0)] } = 2 ^ 32 ∧
      State.capacity { numbered with seg := [(0, Segment.zeros 1), (2 ^ 32 - 1, Segment.zeros 0)] } 1 = true) ∧
    (numbered.capacity 1 = true ∧ numbered.free = [] ∧ numbered.nextId < 2 ^ 32) := by decide
theorem witness_OnlyFreeIdentifierIsReused :
    State.free { numbered with free := [2] } = [2] ∧ State.capacity { numbered with free := [2] } 3 = true := by decide
theorem witness_StepStaysWithinCapacity :
    State.Inv { numbered with capWords := some 13 } ∧ State.withinCapacity { numbered with capWords := some 13 } ∧
      (after (step { numbered with capWords := some 13 })).isSome = true := by decide
theorem witness_UnmapReclaimsSegment :
    numbered.readReg 0 = 0 ∧ (numbered.readReg 2 ≠ 0 ∧ numbered.mapped (numbered.readReg 2) = false) ∧
      (numbered.readReg 1 ≠ 0 ∧ numbered.mapped (numbered.readReg 1) = true) := by decide
theorem witness_StaleIdentifierIsFatal :
    numbered.readReg 1 ≠ 0 ∧ numbered.mapped (numbered.readReg 1) = true ∧
      (runWord 0x90000001 numbered).map (·.readReg 1) = some (numbered.readReg 1) := by decide
theorem witness_MapAfterUnmapIsFresh :
    numbered.free = [] ∧ numbered.readReg 1 ≠ 0 ∧ numbered.mapped (numbered.readReg 1) = true ∧
      (runWord 0x90000001 numbered).map (·.capacity (numbered.readReg 3).toNat) = some true := by decide
theorem witness_OutEmitsOneValue :
    255 < (numbered.readReg 5).toNat ∧ ((numbered.readReg 4).toNat ≤ 255 ∧ numbered.sinkReady = true) := by decide
theorem witness_InReceivesOneEvent :
    numbered.input = [] ∧
    State.input { numbered with input := [.byte 255] } = .byte 255 :: [] ∧
    State.input { numbered with input := [.eof, .byte 0] } = .eof :: [.byte 0] ∧
    State.input { numbered with input := [.failure] } = .failure :: [] := by decide
theorem witness_WaitsChangeNothing :
    numbered.input = [] ∧
      ((numbered.readReg 4).toNat ≤ 255 ∧ State.sinkReady { numbered with sinkReady := false } = false) := by decide
theorem witness_StreamsMoveOnlyByOutAndIn : (after (exec (.out 4) numbered)).map (·.out) = some [255] := by decide
theorem witness_StepNeverLooksAhead :
    State.input { numbered with input := [.eof] } ≠ [] ∧ (after (step { numbered with input := [.eof] })).isSome = true := by
  decide
theorem witness_StepNeverReadsOutput : (after (step numbered)).isSome = true := by decide
/-- An absent segment, segment 0, no storage for the copy, storage for exactly the copy. -/
theorem witness_LoadpReplacesProgram :
    numbered.lenOf (numbered.readReg 2) = none ∧
    (numbered.lenOf (numbered.readReg 0) = some 10 ∧ numbered.readReg 0 = 0) ∧
    (numbered.lenOf (numbered.readReg 1) = some 3 ∧ numbered.readReg 1 ≠ 0 ∧
      State.capacityForProgram { numbered with capWords := some 5 } 3 = false ∧
      State.capacityForProgram { numbered with capWords := some 6 } 3 = true) := by decide
theorem witness_LoadedCopySharesNothing :
    numbered.lenOf (numbered.readReg 1) = some 3 ∧ numbered.readReg 1 ≠ 0 ∧ numbered.capacityForProgram 3 = true ∧
      (runWord 0xC0000008 numbered).map (fun t => (t.mapped 0, t.mapped 1)) = some (true, true) := by decide
theorem witness_LoadedProgramIsFetchedNext :
    numbered.status = .running ∧
    (numbered.lenOf (numbered.readReg 1) = some 3 ∧ numbered.capacityForProgram 3 = true ∧
      numbered.wordAt (numbered.readReg 1) (numbered.readReg 2) = some 9 ∧ 3 ≤ (numbered.readReg 3).toNat) ∧
    (numbered.lenOf (numbered.readReg 0) = some 10 ∧ numbered.readReg 0 = 0 ∧ 10 ≤ (numbered.readReg 7).toNat) := by decide
theorem witness_FetchSeesTheStore :
    numbered.status = .running ∧ numbered.readReg 0 = 0 ∧ numbered.lenOf 0 = some 10 ∧ (numbered.readReg 1).toNat < 10 ∧
      numbered.readReg 1 = numbered.pc + 1 := by decide
theorem witness_LoadvLoadsImmediate :
    (0x01FFFFFF#32).toNat < 2 ^ 25 ∧ (0xDFFFFFFF#32).toNat / 2 ^ 28 = 13 ∧ (0xDFFFFFFF#32).toNat / 2 ^ 25 % 8 = (7 : Reg).val ∧
      (0xDFFFFFFF#32).toNat % 2 ^ 25 = (0x01FFFFFF#32).toNat := by decide
theorem witness_StepKeepsInvariant : numbered.Inv ∧ (after (step numbered)).isSome = true := by decide
theorem witness_EnvironmentKeepsInvariant : (State.boot [0x70000000] [.eof] none).isSome = true ∧ numbered.Inv := by decide
theorem witness_BootGivesResetState : ([0x70000000#32]).length ≤ 2 ^ 32 - 1 := by decide
theorem witness_EnvironmentReachesNoCoreState : ([] : List Word).length ≤ 2 ^ 32 - 1 := by decide
theorem witness_InvariantStateAlwaysSteps : numbered.Inv := by decide
theorem witness_SegmentLengthsAreFixed :
    numbered.Inv ∧ (after (exec (.sstore 1 2 3) numbered)).map (·.lenOf 1) = some (some 3) ∧ (1#32) ≠ 0#32 ∧
      numbered.lenOf 1 = some 3 ∧ (after (exec (.loadp 1 0) numbered)).map (·.lenOf 0) = some (some 3) ∧
      numbered.lenOf 0 = some 10 := by decide
theorem witness_OnlyStoreChangesWords :
    numbered.Inv ∧ numbered.wordAt 1 2 = some 9 ∧
      (after (exec (.sstore 1 2 3) numbered)).map (·.wordAt 1 2) = some (some 3) := by decide
theorem witness_PoolChangesOnlyByMapAndUnmap :
    (numbered.free = [] ∧ (after (exec (.unmap 1) numbered)).map (·.free) = some [1]) ∧
      (after (exec (.map 1 2) { numbered with free := [2] })).map (·.free) = some [] := by decide
theorem witness_ProgramSegmentStaysMapped :
    numbered.mapped 0 = true ∧ 0 ∉ numbered.free ∧ (after (exec (.unmap 1) numbered)).isSome = true := by decide

end Sys2Proof.Tests
end

section
/-! The environment's actions, one equation each (spec/70_reset_and_hazards.md R154), and the image a reset accepts. -/

namespace Sys2Proof.Machine

variable (s : State)

@[simp] theorem State.envAct_deliver (e : InEvent) : s.envAct (.deliver e) = { s with input := s.input ++ [e] } := rfl

@[simp] theorem State.envAct_sink (ready : Bool) : s.envAct (.sink ready) = { s with sinkReady := ready } := rfl

theorem State.envAct_restart (image : List Word) :
    s.envAct (.restart image) = (State.boot image [] s.capWords).getD s := rfl

/-- R37: an image the environment may supply (R5) is booted, and gives the reset state but for the three parameters. -/
theorem State.boot_of_length_le {image : List Word} (h : image.length ≤ maxImageWords) (input : List InEvent)
    (cap : Option Nat) :
    State.boot image input cap =
      some { State.reset with seg := [(0, Segment.ofWords image)], input := input, capWords := cap } :=
  if_pos h

/-- With such an image a reset does not take the fallback of `envAct`: the old state is gone, all but its CAP_WORDS. -/
theorem State.boot_eq_some_envAct_restart {image : List Word} (h : image.length ≤ maxImageWords) :
    State.boot image [] s.capWords = some (s.envAct (.restart image)) := by
  rw [State.envAct_restart, State.boot_of_length_le h, Option.getD_some]

/-- Settles O55: each clause is the equation of one action; the third is where the bound on the image is used. -/
theorem environmentReachesNoCoreState : Obligations.EnvironmentReachesNoCoreState :=
  ⟨State.envAct_deliver, State.envAct_sink, fun s _ h => s.boot_eq_some_envAct_restart h⟩

end Sys2Proof.Machine
end

section
/-! What an instruction can do to memory and the pool together, and to the register file: the effects of `exec_effect`
sorted by the part of the state they touch. -/

namespace Sys2Proof.Machine

/-- The identifiers MAP may issue: a free one, and the fresh one only when none is free (R113). -/
def State.issuable (s : State) (id : Word) : Prop := id ∈ s.free ∨ (s.free = [] ∧ id.toNat = s.nextId)

/-- The ways from `s` to a state `t` as far as memory and the pool go: SSTORE replaces a word, MAP adds a segment under an
issuable identifier, UNMAP moves an identifier to the pool, LOADP replaces segment 0; any instruction may leave both. -/
inductive StorageEffect (s : State) : Instr → State → Prop where
  | keep (i : Instr) (t : State) (hseg : t.seg = s.seg) (hfree : t.free = s.free) : StorageEffect s i t
  | store (a b c : Reg) (g g' : Segment) (t : State) (h : s.segment? (s.readReg a) = some g)
      (hw : g.write (s.readReg b).toNat (s.readReg c) = some g')
      (hseg : t.seg = Assoc.put (s.readReg a).toNat g' s.seg) (hfree : t.free = s.free) :
      StorageEffect s (.sstore a b c) t
  | map (b c : Reg) (id : Word) (t : State) (hid : s.issuable id)
      (hseg : t.seg = Assoc.put id.toNat (Segment.zeros (s.readReg c).toNat) s.seg)
      (hfree : t.free = s.free.filter (· != id)) : StorageEffect s (.map b c) t
  | unmap (c : Reg) (t : State) (h : s.readReg c ≠ 0#32) (hm : s.mapped (s.readReg c) = true)
      (hseg : t.seg = Assoc.drop (s.readReg c).toNat s.seg) (hfree : t.free = s.free.insert (s.readReg c)) :
      StorageEffect s (.unmap c) t
  | loadp (b c : Reg) (g : Segment) (t : State) (h : s.segment? (s.readReg b) = some g)
      (hseg : t.seg = Assoc.put (0#32 : Word).toNat g s.seg) (hfree : t.free = s.free) : StorageEffect s (.loadp b c) t

/-- Everything an instruction can do to memory and the pool. -/
theorem exec_storageEffect {i : Instr} {s t : State} (h : exec i s = .next t) : StorageEffect s i t := by
  cases exec_effect h
  case sstore a b c g g' hg _ hw => exact .store a b c g g' _ hg hw rfl rfl
  case mapReuse b c id _ _ hid => exact .map b c id _ (.inl hid) rfl rfl
  case mapFresh b c _ hf hn =>
    have hid : (BitVec.ofNat 32 s.nextId).toNat = s.nextId := Nat.mod_eq_of_lt hn
    exact .map b c (BitVec.ofNat 32 s.nextId) _ (.inr ⟨hf, hid⟩) (by rw [hid]; rfl) (by simp [hf])
  case unmap c hne hm => exact .unmap c _ hne hm rfl rfl
  case loadp b c g hg _ _ => exact .loadp b c g _ hg rfl rfl
  all_goals exact .keep _ _ rfl rfl

/-- Everything an instruction can do to the registers: nothing, or one write to its destination, the status unchanged. -/
theorem exec_registers {i : Instr} {s t : State} (h : exec i s = .next t) :
    t.x = s.x ∨ ∃ d v, destination i = some d ∧ t.x = s.x.set d v ∧ t.status = s.status := by
  cases exec_effect h
  case cmovMove | sload | add | mul | div | nand | mapReuse | mapFresh | inByte | inEof | loadv =>
    exact .inr ⟨_, _, rfl, rfl, rfl⟩
  all_goals exact .inl rfl

/-- R21: reading after a write to any register. -/
theorem State.readReg_writeReg (s : State) (r q : Reg) (v : Word) :
    (s.writeReg r v).readReg q = if q = r then v else s.readReg q := by
  split
  case isTrue h => rw [h, State.readReg_writeReg_same]
  case isFalse h => exact s.readReg_writeReg_other h v

theorem State.readReg_eq_of_x {s t : State} (h : t.x = s.x) (r : Reg) : t.readReg r = s.readReg r := by
  rw [State.readReg, State.readReg, h]

/-- Settles O18: a register write is a vector update at every index, 0 included. -/
theorem registersHoldWhatIsWritten : Obligations.RegistersHoldWhatIsWritten :=
  State.readReg_writeReg

/-- Settles O19: the one write an instruction can make goes to its destination and keeps the status, so it is not made by a
fatal step. -/
theorem onlyDestinationIsWritten : Obligations.OnlyDestinationIsWritten := by
  intro i s t hs h
  rcases exec_registers h with hx | ⟨d, v, hd, hx, hst⟩
  · exact ⟨fun r _ => State.readReg_eq_of_x hx r, fun _ _ => State.readReg_eq_of_x hx⟩
  · have hw : t.x = (s.writeReg d v).x := hx
    refine ⟨fun r hr => ?_, fun k hk => ?_⟩
    · have hrd : r ≠ d := fun e => hr (by rw [hd, e])
      rw [State.readReg_eq_of_x hw, s.readReg_writeReg_other hrd]
    · rw [hst, hs] at hk
      cases hk

end Sys2Proof.Machine
end

section
/-! The invariants R30 read as facts about sets of identifiers, and the three updates of memory and pool that keep them. -/

namespace Sys2Proof.Machine

/-- Identifier `id` has been issued and is mapped or free (R28). -/
def State.issued (s : State) (id : Nat) : Prop := s.live id ∨ s.pooled id

variable {s t : State}

/-! ### Which identifiers are live and free after an update -/

theorem State.live_put {k : Nat} {g : Segment} (h : t.seg = Assoc.put k g s.seg) (j : Nat) :
    t.live j ↔ j = k ∨ s.live j := by
  unfold State.live
  rw [h]
  by_cases hj : j = k
  · simp [hj]
  · simp [hj, Assoc.find_put_other hj]

theorem State.live_drop {k : Nat} (h : t.seg = Assoc.drop k s.seg) (j : Nat) : t.live j ↔ j ≠ k ∧ s.live j := by
  unfold State.live
  rw [h]
  by_cases hj : j = k
  · simp [hj]
  · simp [hj, Assoc.find_drop_other hj]

theorem State.pooled_filter {id : Word} (h : t.free = s.free.filter (· != id)) (j : Nat) :
    t.pooled j ↔ s.pooled j ∧ j ≠ id.toNat := by
  simp only [State.pooled, h, List.mem_map, List.mem_filter, bne_iff_ne]
  constructor
  · rintro ⟨w, ⟨hw, hne⟩, rfl⟩
    exact ⟨⟨w, hw, rfl⟩, fun e => hne (BitVec.eq_of_toNat_eq e)⟩
  · rintro ⟨⟨w, hw, rfl⟩, hne⟩
    exact ⟨w, ⟨hw, fun e => hne (congrArg _ e)⟩, rfl⟩

theorem State.pooled_insert {id : Word} (h : t.free = s.free.insert id) (j : Nat) :
    t.pooled j ↔ j = id.toNat ∨ s.pooled j := by
  simp [State.pooled, h, List.mem_insert_iff, eq_comm]

/-! ### The invariants -/

/-- An issued identifier is below `next_id` (R29). -/
theorem State.lt_nextId_of_issued {id : Nat} (h : s.issued id) : id < s.nextId := by
  rcases h with h | h
  · obtain ⟨g, hg⟩ := Option.isSome_iff_exists.mp h
    exact s.lt_nextId_of_mem (Assoc.mem_of_find hg)
  · exact State.lt_nextId_of_pooled h

/-- The range below `next_id` is gap-free exactly when every identifier below an issued one is issued. This form does not
name `next_id`, which changes with the sets. -/
theorem State.gapFree_iff : (∀ id, id < s.nextId → 1 ≤ id → s.issued id) ↔
    ∀ k, s.issued k → ∀ id, 1 ≤ id → id ≤ k → s.issued id := by
  constructor
  · intro h k hk id h1 hle
    exact h id (lt_of_le_of_lt hle (State.lt_nextId_of_issued hk)) h1
  · intro h id hlt h1
    exact h _ (s.nextId_pred (by omega)) id h1 (by omega)

/-- The invariants by sets: what is mapped is not free, and the issued identifiers have no gap. -/
theorem State.inv_iff : s.Inv ↔ Memory.wf s.seg = true ∧ s.live 0 ∧ (∀ id, s.live id → ¬ s.pooled id) ∧
    (∀ k, s.issued k → ∀ id, 1 ≤ id → id ≤ k → s.issued id) ∧ s.free.Nodup := by
  rw [← State.gapFree_iff]
  constructor
  · rintro ⟨hwf, h0, -, hdisj, hgap, hnd⟩
    refine ⟨hwf, h0, fun id hl => ?_, hgap, hnd⟩
    obtain ⟨g, hg⟩ := Option.isSome_iff_exists.mp hl
    exact hdisj _ (Assoc.mem_of_find hg)
  · rintro ⟨hwf, h0, hdisj, hgap, hnd⟩
    exact ⟨hwf, h0, hdisj 0 h0, fun e he => hdisj _ (Assoc.find_isSome_of_mem he), hgap, hnd⟩

/-- The invariants speak of memory and the pool only. -/
theorem State.inv_of_keep (hs : s.Inv) (hseg : t.seg = s.seg) (hfree : t.free = s.free) : t.Inv := by
  simpa only [State.Inv, State.live, State.pooled, State.nextId, hseg, hfree] using hs

/-- Replacing a live segment by one in canonical form keeps the invariants. -/
theorem State.inv_of_replace {k : Nat} {g : Segment} (hs : s.Inv) (hk : s.live k) (hg : g.wf = true)
    (hseg : t.seg = Assoc.put k g s.seg) (hfree : t.free = s.free) : t.Inv := by
  obtain ⟨hwf, h0, hdisj, hgap, hnd⟩ := State.inv_iff.mp hs
  have hlive : ∀ j, t.live j ↔ s.live j := fun j => by
    rw [State.live_put hseg]
    exact or_iff_right_of_imp fun e => e ▸ hk
  have hpool : ∀ j, t.pooled j ↔ s.pooled j := fun j => by rw [State.pooled, hfree]
  obtain ⟨g₀, hg₀⟩ := Option.isSome_iff_exists.mp hk
  have hwf' : Memory.wf t.seg = true := hseg ▸ Memory.wf_put hwf (Memory.wf_find hwf hg₀).1 hg
  refine State.inv_iff.mpr ⟨hwf', (hlive 0).mpr h0, ?_, ?_, hfree ▸ hnd⟩
  · simpa only [hlive, hpool] using hdisj
  · simpa only [State.issued, hlive, hpool] using hgap

/-- Moving a nonzero live identifier to the pool keeps the invariants: the issued ones are the same. -/
theorem State.inv_of_release {id : Word} (hs : s.Inv) (h0id : id ≠ 0#32) (hid : s.live id.toNat)
    (hseg : t.seg = Assoc.drop id.toNat s.seg) (hfree : t.free = s.free.insert id) : t.Inv := by
  obtain ⟨hwf, h0, hdisj, hgap, hnd⟩ := State.inv_iff.mp hs
  have hlive := State.live_drop hseg
  have hpool := State.pooled_insert hfree
  have hissued : ∀ j, t.issued j ↔ s.issued j := fun j => by
    rw [State.issued, State.issued, hlive, hpool]
    by_cases hj : j = id.toNat
    · exact iff_of_true (.inr (.inl hj)) (.inl (hj ▸ hid))
    · simp only [hj, ne_eq, not_false_eq_true, true_and, false_or]
  have hne : 0 ≠ id.toNat := fun e => h0id (BitVec.eq_of_toNat_eq e.symm)
  refine State.inv_iff.mpr ⟨hseg ▸ Memory.wf_drop _ hwf, (hlive 0).mpr ⟨hne, h0⟩, ?_, ?_, hfree ▸ hnd.insert⟩
  · intro j hj hp
    obtain ⟨hjid, hj⟩ := (hlive j).mp hj
    exact ((hpool j).mp hp).elim hjid (hdisj j hj)
  · simpa only [hissued] using hgap

/-- An issuable identifier is not mapped, so MAP replaces no segment (R113, R30). -/
theorem State.not_live_of_issuable {id : Word} (hs : s.Inv) (hid : s.issuable id) : ¬ s.live id.toNat := by
  obtain ⟨-, -, hdisj, -, -⟩ := State.inv_iff.mp hs
  intro hl
  rcases hid with hid | ⟨-, hid⟩
  · exact hdisj _ hl ((s.mem_free_iff_pooled id).mp hid)
  · exact absurd (State.lt_nextId_of_issued (.inl hl)) (by omega)

/-- Every identifier below an issuable one is issued. -/
theorem State.issued_of_lt_issuable {id : Word} (hs : s.Inv) (hid : s.issuable id) {j : Nat} (h1 : 1 ≤ j)
    (hj : j < id.toNat) : s.issued j := by
  obtain ⟨-, -, -, hgap, -⟩ := State.inv_iff.mp hs
  rcases hid with hid | ⟨-, hid⟩
  · exact hgap _ (.inr ((s.mem_free_iff_pooled id).mp hid)) j h1 hj.le
  · exact State.gapFree_iff.mpr hgap j (hid ▸ hj) h1

/-- Mapping a segment in canonical form under an issuable identifier keeps the invariants: that identifier is the one newly
issued, if it is new at all. -/
theorem State.inv_of_issue {id : Word} {g : Segment} (hs : s.Inv) (hid : s.issuable id) (hg : g.wf = true)
    (hseg : t.seg = Assoc.put id.toNat g s.seg) (hfree : t.free = s.free.filter (· != id)) : t.Inv := by
  obtain ⟨hwf, h0, hdisj, hgap, hnd⟩ := State.inv_iff.mp hs
  have hlive := State.live_put hseg
  have hpool := State.pooled_filter hfree
  have hissued : ∀ j, t.issued j ↔ j = id.toNat ∨ s.issued j := fun j => by
    rw [State.issued, State.issued, hlive, hpool]
    by_cases hj : j = id.toNat
    · exact iff_of_true (.inl (.inl hj)) (.inl hj)
    · simp only [hj, ne_eq, not_false_eq_true, and_true, false_or]
  refine State.inv_iff.mpr
    ⟨hseg ▸ Memory.wf_put hwf id.isLt hg, (hlive 0).mpr (.inr h0), ?_, ?_, hfree ▸ hnd.filter _⟩
  · intro j hj hp
    obtain ⟨hp, hjid⟩ := (hpool j).mp hp
    exact ((hlive j).mp hj).elim hjid fun hj => hdisj j hj hp
  · intro k hk j h1 hjk
    rw [hissued] at hk ⊢
    rcases hk with rfl | hk
    · exact hjk.eq_or_lt.imp_right (State.issued_of_lt_issuable hs hid h1)
    · exact .inr (hgap k hk j h1 hjk)

/-! ### Every instruction and every step -/

/-- Every instruction keeps the invariants. -/
theorem exec_keeps_inv {i : Instr} (hs : s.Inv) (h : exec i s = .next t) : t.Inv := by
  have ⟨hwf, h0, _⟩ := hs
  cases exec_storageEffect h with
  | keep _ _ hseg hfree => exact State.inv_of_keep hs hseg hfree
  | store a b c g g' _ hg hw hseg hfree =>
    have hwf' : g'.wf = true := Segment.wf_write (Memory.wf_find hwf hg).2 hw
    exact State.inv_of_replace hs (Option.isSome_of_eq_some hg) hwf' hseg hfree
  | map b c id _ hid hseg hfree =>
    exact State.inv_of_issue hs hid (Segment.wf_zeros (s.readReg c).isLt) hseg hfree
  | unmap c _ hne hm hseg hfree => exact State.inv_of_release hs hne hm hseg hfree
  | loadp b c g _ hg hseg hfree =>
    exact State.inv_of_replace hs h0 (Memory.wf_find hwf hg).2 hseg hfree

/-- Settles O51: a step that runs no instruction changes at most the status, and every instruction keeps the invariants. -/
theorem stepKeepsInvariant : Obligations.StepKeepsInvariant := by
  intro s t hs h
  rcases step_cases h with ⟨-, rfl⟩ | ⟨-, -, rfl⟩ | ⟨-, w, -, hx⟩
  · exact hs
  · exact State.inv_of_keep hs rfl rfl
  · exact exec_keeps_inv hs hx

end Sys2Proof.Machine
end

section
/-! The invariants at reset and under the environment's actions, and what they give: no wrap of the pc, progress, a mapped
program segment, and lengths that stay. -/

namespace Sys2Proof.Machine

variable {s t : State}

/-! ### Reset and the environment -/

/-- R30 after a reset: memory is one segment in canonical form under identifier 0, and the pool is empty. -/
theorem State.inv_of_single {g : Segment} (hg : g.wf = true) (hseg : s.seg = [(0, g)]) (hfree : s.free = []) : s.Inv := by
  have hwf : Memory.wf s.seg = true := hseg ▸ Memory.wf_put (m := []) rfl (by decide) hg
  have hlive : ∀ id, s.live id ↔ id = 0 := fun id => by
    rw [State.live, hseg]
    by_cases hid : id = 0 <;> simp [Assoc.find, hid]
  have hpool : ∀ id, ¬ s.pooled id := by simp [State.pooled, hfree]
  refine State.inv_iff.mpr
    ⟨hwf, (hlive 0).mpr rfl, fun id _ => hpool id, fun k hk id h1 hle => ?_, hfree ▸ List.nodup_nil⟩
  have hk0 : k = 0 := (hlive k).mp (hk.resolve_right (hpool k))
  omega

/-- A boot answers only for an image the environment may supply (R5), and then with the reset state but for the three
parameters (R37). -/
theorem State.boot_eq_some_iff {image : List Word} {input : List InEvent} {cap : Option Nat} :
    State.boot image input cap = some s ↔ image.length ≤ maxImageWords ∧
      s = { State.reset with seg := [(0, Segment.ofWords image)], input := input, capWords := cap } := by
  rw [State.boot, Option.ite_none_right_eq_some, Option.some_inj, eq_comm (a := s)]

/-- R30 after a reset with any image. -/
theorem State.boot_inv {image : List Word} {input : List InEvent} {cap : Option Nat}
    (h : State.boot image input cap = some s) : s.Inv := by
  obtain ⟨hlen, rfl⟩ := State.boot_eq_some_iff.mp h
  exact State.inv_of_single (Segment.wf_ofWords (Nat.lt_of_le_sub_one (by decide) hlen)) rfl rfl

/-- Settles O53: a delivery and the sink reach neither memory nor pool; a reset boots the image, or refuses it and changes
nothing. -/
theorem environmentKeepsInvariant : Obligations.EnvironmentKeepsInvariant := by
  refine ⟨fun _ _ _ _ => State.boot_inv, fun s e hs => ?_⟩
  cases e with
  | deliver e => exact State.inv_of_keep hs rfl rfl
  | sink ready => exact State.inv_of_keep hs rfl rfl
  | restart image =>
    rw [State.envAct_restart]
    cases hb : State.boot image [] s.capWords with
    | none => exact hs
    | some t => exact State.boot_inv hb

/-- Settles O52: the reset memory is the empty segment under identifier 0, and its storage is unbounded. -/
theorem resetMeetsInvariant : Obligations.ResetMeetsInvariant :=
  ⟨State.inv_of_single (Segment.wf_zeros (n := 0) (by decide)) rfl rfl, rfl⟩

/-- Settles O54: the words of segment 0 are the image's, and a nonzero identifier names nothing. -/
theorem bootGivesResetState : Obligations.BootGivesResetState := by
  intro image input cap hlen
  refine ⟨_, State.boot_of_length_le hlen input cap, State.reset_readReg, rfl, rfl, fun i => ?_, fun id hid => ?_,
    rfl, rfl, rfl, rfl, rfl⟩
  · exact Segment.read_ofWords image i.toNat
  · have hne : id.toNat ≠ 0 := fun e => hid (BitVec.eq_of_toNat_eq e)
    exact State.lenOf_of_absent (if_neg hne)

/-! ### The step -/

/-- Settles O17: the fetched word lies below the length of segment 0, which is itself a 32-bit number (R42). -/
theorem incrementNeverWraps : Obligations.IncrementNeverWraps := by
  intro s w hs hw
  obtain ⟨hwf, -⟩ := hs
  obtain ⟨g, hg, hr⟩ := Option.bind_eq_some_iff.mp hw
  have hpc : s.pc.toNat < g.len := Segment.read_isSome.mp (Option.isSome_of_eq_some hr)
  obtain ⟨-, -, hlen⟩ := Segment.wf_iff.mp (Memory.wf_find hwf hg).2
  omega

/-- A step answers a next state wherever segment 0 is mapped (R26). -/
theorem step_total (h0 : s.live 0) : ∃ t, step s = .next t := by
  cases hst : s.status with
  | halted => exact ⟨s, by simp only [step, engineStep, hst]⟩
  | fatal k => exact ⟨s, by simp only [step, engineStep, hst]⟩
  | running =>
    rcases s.fetch_cases with ⟨hg, -⟩ | ⟨g, -, -, hf⟩ | ⟨g, w, -, -, -, hf⟩
    · obtain ⟨g, hg'⟩ := Option.isSome_iff_exists.mp h0
      exact absurd (hg.symm.trans hg') (by simp)
    · exact ⟨s.raise .pcOutOfRange, by simp only [step, engineStep, hst, hf]⟩
    · obtain ⟨t, ht, -⟩ := exec_total (decode w) s
      exact ⟨t, by simp only [step, engineStep, hst, hf, ht]⟩

/-- Settles O56: of the invariants, that segment 0 is mapped is enough. -/
theorem invariantStateAlwaysSteps : Obligations.InvariantStateAlwaysSteps :=
  fun _ ⟨_, h0, _⟩ => step_total h0

/-! ### What lives on after an instruction -/

/-- Settles O60: only UNMAP removes a segment or adds to the pool, and it does so for nonzero identifiers. -/
theorem programSegmentStaysMapped : Obligations.ProgramSegmentStaysMapped := by
  intro i s t hm hf h
  cases exec_storageEffect h with
  | keep _ _ hseg hfree =>
    rw [State.mapped_iff_live, State.live, hseg, hfree]
    exact ⟨hm, hf⟩
  | store a b c g g' _ _ _ hseg hfree => exact ⟨(State.live_put hseg 0).mpr (.inr hm), hfree ▸ hf⟩
  | map b c id _ _ hseg hfree =>
    exact ⟨(State.live_put hseg 0).mpr (.inr hm), fun h0 => hf (List.mem_of_mem_filter (hfree ▸ h0))⟩
  | unmap c _ hne _ hseg hfree =>
    have hne' : 0 ≠ (s.readReg c).toNat := fun e => hne (BitVec.eq_of_toNat_eq e.symm)
    refine ⟨(State.live_drop hseg 0).mpr ⟨hne', hm⟩, fun h0 => ?_⟩
    exact (List.mem_insert_iff.mp (hfree ▸ h0)).elim (fun e => hne e.symm) hf
  | loadp b c g _ _ hseg hfree => exact ⟨(State.live_put hseg 0).mpr (.inr hm), hfree ▸ hf⟩

theorem State.segment_put_same {id : Word} {g : Segment} (h : t.seg = Assoc.put id.toNat g s.seg) :
    t.segment? id = some g :=
  (State.segment_put h id).trans (if_pos rfl)

theorem State.reads_put_other {id j : Word} {g : Segment} (h : t.seg = Assoc.put id.toNat g s.seg) (hj : j ≠ id) :
    (∀ i, t.wordAt j i = s.wordAt j i) ∧ t.lenOf j = s.lenOf j :=
  State.reads_eq_of_segment ((State.segment_put h j).trans (if_neg hj))

theorem Segment.len_write {g g' : Segment} {i : Nat} {v : Word} (h : g.write i v = some g') : g'.len = g.len := by
  obtain ⟨-, h⟩ := Option.ite_none_right_eq_some.mp h
  rw [← Option.some.inj h]

/-- The length of an identifier after an instruction: as before, or MAP issued it, or UNMAP reclaimed it, or it is segment 0
and LOADP replaced it. -/
theorem exec_lenOf {i : Instr} (h : exec i s = .next t) (j : Word) :
    t.lenOf j = s.lenOf j ∨ s.issuable j ∨ (j ≠ 0#32 ∧ t.lenOf j = none) ∨ (j = 0#32 ∧ ∃ b c, i = .loadp b c) := by
  cases exec_storageEffect h with
  | keep _ _ hseg hfree => exact .inl (by rw [State.lenOf, State.lenOf, State.segment?, State.segment?, hseg])
  | store a b c g g' _ hg hw hseg hfree =>
    left
    by_cases hj : j = s.readReg a
    · rw [hj, State.lenOf_of_segment hg, State.lenOf_of_segment (State.segment_put_same hseg), Segment.len_write hw]
    · exact (State.reads_put_other hseg hj).2
  | map b c id _ hid hseg hfree =>
    by_cases hj : j = id
    · exact .inr (.inl (hj ▸ hid))
    · exact .inl (State.reads_put_other hseg hj).2
  | unmap c _ hne _ hseg hfree =>
    by_cases hj : j = s.readReg c
    · exact .inr (.inr (.inl ⟨hj ▸ hne, State.lenOf_of_absent ((State.segment_drop hseg j).trans (if_pos hj))⟩))
    · exact .inl (State.reads_eq_of_segment ((State.segment_drop hseg j).trans (if_neg hj))).2
  | loadp b c g _ _ hseg hfree =>
    by_cases hj : j = 0#32
    · exact .inr (.inr (.inr ⟨hj, b, c, rfl⟩))
    · exact .inl (State.reads_put_other hseg hj).2

/-- Settles O57: MAP issues no mapped identifier, by the invariants, so it changes the length of none that lives. -/
theorem segmentLengthsAreFixed : Obligations.SegmentLengthsAreFixed := by
  intro i s t hs h
  have ⟨_, h0, _⟩ := hs
  refine ⟨fun id n m hid hn hm => ?_, fun hne => ?_⟩
  · rcases exec_lenOf h id with he | hi | ⟨-, hnone⟩ | ⟨hid0, -⟩
    · rw [he, hn] at hm
      exact (Option.some.inj hm).symm
    · obtain ⟨g, hg, -⟩ := State.segment_of_lenOf hn
      exact absurd (Option.isSome_of_eq_some hg) (State.not_live_of_issuable hs hi)
    · rw [hnone] at hm
      cases hm
    · exact absurd hid0 hid
  · rcases exec_lenOf h 0#32 with he | hi | ⟨h00, -⟩ | ⟨-, hl⟩
    · exact absurd he hne
    · exact absurd h0 (State.not_live_of_issuable hs hi)
    · exact absurd rfl h00
    · exact hl

end Sys2Proof.Machine
end

section
/-! Data that determine each other: a memory in canonical form and what it reads as, a status and its number. -/

namespace Sys2Proof.Machine

/-- A memory in canonical form has nothing under a number that no word names. -/
theorem Memory.find_eq_none {m : Memory} {k : Nat} (hm : Memory.wf m = true) (hk : 2 ^ 32 ≤ k) :
    Assoc.find k m = none := by
  cases hf : Assoc.find k m with
  | none => rfl
  | some g => exact absurd (Memory.wf_find hm hf).1 (by omega)

/-- Two states with memory in canonical form that give the same length and words for an identifier hold the same segment
there. -/
theorem State.segment_eq_of_reads {s t : State} {id : Word} (hs : Memory.wf s.seg = true) (ht : Memory.wf t.seg = true)
    (hl : s.lenOf id = t.lenOf id) (hw : ∀ i, s.wordAt id i = t.wordAt id i) : s.segment? id = t.segment? id := by
  cases hg : s.segment? id with
  | none => exact (State.absent_of_lenOf (hl ▸ State.lenOf_of_absent hg)).symm
  | some g =>
    obtain ⟨g', hg', hlen⟩ := State.segment_of_lenOf (hl ▸ State.lenOf_of_segment hg)
    have hwf := (Memory.wf_find hs hg).2
    obtain ⟨-, -, hlt⟩ := Segment.wf_iff.mp hwf
    have hread : ∀ i, i < g.len → g.read i = g'.read i := fun i hi => by
      have hi' : (BitVec.ofNat 32 i).toNat = i := Nat.mod_eq_of_lt (hi.trans hlt)
      have := hw (BitVec.ofNat 32 i)
      rwa [State.wordAt_of_segment hg, State.wordAt_of_segment hg', hi'] at this
    rw [hg', Segment.ext_of_wf hwf (Memory.wf_find ht hg').2 hlen.symm hread]

/-- Settles O22: under every number a word names the two hold the same segment, and under any other nothing. -/
theorem canonicalMemoryIsDetermined : Obligations.CanonicalMemoryIsDetermined := by
  intro s t hs ht hl hw
  refine Assoc.ext_of_sorted (Memory.wf_iff.mp hs).1 (Memory.wf_iff.mp ht).1 fun k => ?_
  by_cases hk : k < 2 ^ 32
  · have hk' : (BitVec.ofNat 32 k).toNat = k := Nat.mod_eq_of_lt hk
    have := State.segment_eq_of_reads hs ht (hl (BitVec.ofNat 32 k)) (hw (BitVec.ofNat 32 k))
    rwa [State.segment?, State.segment?, hk'] at this
  · rw [Memory.find_eq_none hs (Nat.not_lt.mp hk), Memory.find_eq_none ht (Nat.not_lt.mp hk)]

/-- The codes number the fatal kinds in order, from 1 (R131), so a kind is read back from its code. -/
theorem FatalKind.ofNat_code (k : FatalKind) : FatalKind.ofNat (k.code - 1) = k := by
  cases k <;> rfl

theorem FatalKind.code_injective : Function.Injective FatalKind.code :=
  Function.LeftInverse.injective (g := fun n => FatalKind.ofNat (n - 1)) FatalKind.ofNat_code

/-- No two statuses share a number (R31): the fatal ones start at 16. -/
theorem Status.port_injective : Function.Injective Status.port := by
  intro a b h
  match a, b with
  | .running, .running => rfl
  | .halted, .halted => rfl
  | .fatal j, .fatal k => rw [FatalKind.code_injective (Nat.add_left_cancel h)]
  | .running, .halted | .halted, .running => cases h
  | .running, .fatal k | .halted, .fatal k | .fatal k, .running | .fatal k, .halted =>
    simp only [Status.port] at h
    omega

/-- Settles O15: the table read off, and the numbers are injective. -/
theorem statusPortNumbers : Obligations.StatusPortNumbers :=
  ⟨rfl, rfl, fun _ => rfl, rfl, rfl, rfl, rfl, rfl, rfl, rfl, rfl, rfl, fun _ _ h => Status.port_injective h⟩

end Sys2Proof.Machine
end

section
/-! The byte image (spec/20_memory.md R43): four bytes are one word, and what is left over decides whether the image is read. -/

namespace Sys2Proof

/-- Four bytes fill a word, so the sum R43 gives does not wrap. -/
theorem wordOfBytes_toNat (b0 b1 b2 b3 : Byte) :
    (wordOfBytes b0 b1 b2 b3).toNat = b0.toNat * 2 ^ 24 + b1.toNat * 2 ^ 16 + b2.toNat * 2 ^ 8 + b3.toNat := by
  have h0 := b0.isLt; have h1 := b1.isLt; have h2 := b2.isLt; have h3 := b3.isLt
  simp only [wordOfBytes, BitVec.toNat_ofNat]
  omega

/-- A word is made again of its own bytes. -/
theorem wordOfBytes_extract (w : Word) :
    wordOfBytes (w.extractLsb' 24 8) (w.extractLsb' 16 8) (w.extractLsb' 8 8) (w.extractLsb' 0 8) = w := by
  have hw := w.isLt
  apply BitVec.eq_of_toNat_eq
  simp only [wordOfBytes_toNat, BitVec.extractLsb'_toNat, Nat.shiftRight_eq_div_pow]
  omega

/-- The first four bytes of an image are its first word, whether the rest can be read or not. -/
theorem wordsOfBytes_cons (b0 b1 b2 b3 : Byte) (rest : List Byte) :
    wordsOfBytes (b0 :: b1 :: b2 :: b3 :: rest) = (wordsOfBytes rest).map (wordOfBytes b0 b1 b2 b3 :: ·) := by
  rw [wordsOfBytes]
  cases wordsOfBytes rest <;> rfl

/-- Words laid out as bytes are read back. -/
theorem wordsOfBytes_flatMap_bytesOfWord (ws : List Word) : wordsOfBytes (ws.flatMap bytesOfWord) = .ok ws := by
  induction ws with
  | nil => rfl
  | cons w rest ih =>
    rw [List.flatMap_cons, bytesOfWord]
    simp only [List.cons_append, List.nil_append]
    rw [wordsOfBytes_cons, wordOfBytes_extract, ih]
    rfl

/-- An image that ends inside a word is refused, however many whole words come before (notes/assumptions/11.md). -/
theorem wordsOfBytes_of_length_mod_ne : ∀ bs : List Byte, bs.length % 4 ≠ 0 → wordsOfBytes bs = .error .shortWord
  | [], h => absurd rfl h
  | [_], _ | [_, _], _ | [_, _, _], _ => rfl
  | b0 :: b1 :: b2 :: b3 :: rest, h => by
    have hrest : rest.length % 4 ≠ 0 := by
      simp only [List.length_cons] at h
      omega
    rw [wordsOfBytes_cons, wordsOfBytes_of_length_mod_ne rest hrest]
    rfl

/-- Settles O8: both directions go through the image word by word. -/
theorem byteImageIsBigEndian : Obligations.ByteImageIsBigEndian :=
  ⟨wordsOfBytes_flatMap_bytesOfWord, wordsOfBytes_of_length_mod_ne, wordOfBytes_toNat⟩

end Sys2Proof
end

section
/-! The two memory accesses and the fetch by what `lenOf` and `wordAt` say of the address (spec/20_memory.md R41, R46 to
R49). -/

namespace Sys2Proof.Machine

variable {s t : State} {id i : Word} {n : Nat}

/-! ### Addresses -/

/-- R41: a word is addressable exactly below the length of a mapped segment. -/
theorem State.exists_wordAt_iff_lt_lenOf : (∃ v, s.wordAt id i = some v) ↔ ∃ n, s.lenOf id = some n ∧ i.toNat < n := by
  rw [← Option.isSome_iff_exists]
  cases hg : s.segment? id with
  | none => simp [State.wordAt_of_absent hg, State.lenOf_of_absent hg]
  | some g => simp [State.wordAt_of_segment hg, State.lenOf_of_segment hg, Segment.read_isSome]

/-- Settles O20: a segment's read answers exactly below its length. -/
theorem addressableWords : Obligations.AddressableWords :=
  fun _ _ _ => State.exists_wordAt_iff_lt_lenOf

/-- Only memory decides what is mapped and what a word reads as. -/
theorem State.segment_eq_of_seg (h : t.seg = s.seg) (j : Word) : t.segment? j = s.segment? j := by
  rw [State.segment?, State.segment?, h]

/-! ### Reads and writes -/

/-- R46: the mapping check comes first. -/
theorem State.access_of_absent (h : s.segment? id = none) (i : Word) :
    s.memRead id i = .error .unmappedSegment ∧ ∀ v, s.memWrite id i v = .error .unmappedSegment := by
  simp [State.memRead, State.memWrite, h]

/-- R46: then the bounds check. -/
theorem State.access_of_len_le (h : s.lenOf id = some n) (hn : n ≤ i.toNat) :
    s.memRead id i = .error .outOfBounds ∧ ∀ v, s.memWrite id i v = .error .outOfBounds := by
  obtain ⟨g, hg, rfl⟩ := State.segment_of_lenOf h
  simp [State.memRead, State.memWrite, hg, Segment.read_ge hn, Segment.write_ge hn]

/-- R47: a read of an addressable word gives it. -/
theorem State.memRead_of_wordAt {v : Word} (h : s.wordAt id i = some v) : s.memRead id i = .ok v := by
  obtain ⟨g, hg, hr⟩ := Option.bind_eq_some_iff.mp h
  simp only [State.memRead, hg, hr]

/-- R48: a write to an addressable word succeeds. What it does is `State.memWrite_ok`. -/
theorem State.memWrite_of_lt (h : s.lenOf id = some n) (hi : i.toNat < n) (v : Word) :
    ∃ t, s.memWrite id i v = .ok t := by
  obtain ⟨g, hg, rfl⟩ := State.segment_of_lenOf h
  obtain ⟨g', hw, -⟩ := Segment.write_spec hi v
  exact ⟨{ s with seg := Assoc.put id.toNat g' s.seg }, by simp only [State.memWrite, hg, hw]⟩

/-- R48: a write changes no word of another segment. -/
theorem State.memWrite_wordAt_of_ne {v j : Word} (h : s.memWrite id i v = .ok t) (hj : j ≠ id) (k : Word) :
    t.wordAt j k = s.wordAt j k := by
  obtain ⟨-, hother, -⟩ := State.memWrite_ok h
  exact hother j k fun e => hj (congrArg Prod.fst e)

/-- Settles O21: one lemma per outcome of the checks. -/
theorem memoryAccessChecksAndEffect : Obligations.MemoryAccessChecksAndEffect := by
  intro s id i
  refine ⟨fun hm => ?_, fun n hn hi => State.access_of_len_le hn hi, fun n hn hi => ⟨?_, fun v => ?_⟩⟩
  · exact State.access_of_absent (Option.not_isSome_iff_eq_none.mp (Bool.eq_false_iff.mp hm)) i
  · obtain ⟨v, hv⟩ := State.exists_wordAt_iff_lt_lenOf.mpr ⟨n, hn, hi⟩
    exact ⟨v, hv, State.memRead_of_wordAt hv⟩
  · obtain ⟨t, ht⟩ := State.memWrite_of_lt hn hi v
    obtain ⟨hnew, hother, hlen, -⟩ := State.memWrite_ok ht
    exact ⟨t, ht, State.memRead_of_wordAt hnew, hother, hlen⟩

/-! ### The fetch -/

/-- R80: a running machine runs the word at `(0, pc)`. -/
theorem step_of_wordAt {w : Word} (hs : s.status = .running) (hw : s.wordAt 0#32 s.pc = some w) :
    step s = exec (decode w) s := by
  simp only [step, engineStep, hs, State.fetch_of_wordAt hw]

/-- R49, R138: there is no word to run at or past the end of segment 0. -/
theorem step_of_len_le (hs : s.status = .running) (hn : s.lenOf 0#32 = some n) (hpc : n ≤ s.pc.toNat) :
    step s = .next (s.failed .pcOutOfRange) := by
  obtain ⟨g, hg, rfl⟩ := State.segment_of_lenOf hn
  simp only [step, engineStep, hs, State.fetch, hg, Segment.read_ge hpc, State.raise_eq_failed]

/-- Settles O10: the fetch finds no word at the pc, and raising the condition is all the step does. -/
theorem fetchPastEndIsFatal : Obligations.FetchPastEndIsFatal :=
  fun _ _ => step_of_len_le

end Sys2Proof.Machine
end

section
/-! What an instruction does to the words of memory: the stale identifier, the copy of LOADP, the store into the program, and
the frame of every other word. -/

namespace Sys2Proof.Machine

variable {s t : State}

/-! ### An identifier that names no segment (R56, R133) -/

/-- A nonzero identifier that is not mapped is fatal in each of its four uses. -/
theorem exec_of_absent {q : Reg} (h0 : s.readReg q ≠ 0#32) (h : s.segment? (s.readReg q) = none) (a r : Reg) :
    exec (.sload a q r) s = .next (s.failed .unmappedSegment) ∧
    exec (.sstore q a r) s = .next (s.failed .unmappedSegment) ∧
    exec (.unmap q) s = .next (s.failed .unmappedSegment) ∧
    exec (.loadp q r) s = .next (s.failed .unmappedSegment) := by
  have hm : s.mapped (s.readReg q) = false := by rw [State.mapped, h, Option.isSome_none]
  exact ⟨effect_exec (.sloadAbsent a q r h), effect_exec (.sstoreAbsent q a r h), effect_exec (.unmapAbsent q h0 hm),
    effect_exec (.loadpAbsent q r h)⟩

/-- Settles O38: the identifier UNMAP reclaimed is nonzero and names nothing. -/
theorem staleIdentifierIsFatal : Obligations.StaleIdentifierIsFatal := by
  intro c s h0 hm
  refine ⟨_, effect_exec (.unmap c h0 hm), fun a q r hq => ?_⟩
  have habsent : (s.release (s.readReg c)).advance.segment? (s.readReg c) = none :=
    (State.segment_drop rfl _).trans (if_pos rfl)
  exact exec_of_absent (hq ▸ h0) (hq ▸ habsent) a r

/-! ### LOADP (R54, R57, R122) -/

/-- After LOADP the segment it loaded is segment 0, every other segment is as it was, and the pc is the target. -/
theorem exec_loadp_of_lenOf {b c : Reg} {n : Nat} (hn : s.lenOf (s.readReg b) = some n)
    (hc : s.readReg b = 0#32 ∨ s.capacityForProgram n = true) :
    ∃ t, exec (.loadp b c) s = .next t ∧ t.pc = s.readReg c ∧ t.status = s.status ∧
      t.segment? 0#32 = s.segment? (s.readReg b) ∧ ∀ j, j ≠ 0#32 → t.segment? j = s.segment? j := by
  obtain ⟨g, hg, rfl⟩ := State.segment_of_lenOf hn
  by_cases hb : s.readReg b = 0#32
  · exact ⟨_, effect_exec (.loadpJump b c g hg hb), rfl, rfl, by rw [hb]; rfl, fun _ _ => rfl⟩
  · have hseg : ((s.setProgram g).setPc (s.readReg c)).seg = Assoc.put (0#32 : Word).toNat g s.seg := rfl
    refine ⟨_, effect_exec (.loadp b c g hg hb (hc.resolve_left hb)), rfl, rfl, ?_, fun j hj => ?_⟩
    · rw [State.segment_put_same hseg, hg]
    · exact (State.segment_put hseg j).trans (if_neg hj)

/-- Settles O47: source and copy stand under different identifiers, and a write reaches one segment. -/
theorem loadedCopySharesNothing : Obligations.LoadedCopySharesNothing := by
  intro b c s n hn hb hc
  obtain ⟨t, ht, -, -, -, hother⟩ := exec_loadp_of_lenOf (c := c) hn (.inr hc)
  obtain ⟨hword, hlen⟩ := State.reads_eq_of_segment (hother _ hb)
  exact ⟨t, ht, hlen.trans hn, hword, fun _ _ _ hu => State.memWrite_wordAt_of_ne hu hb,
    fun _ _ _ hu => State.memWrite_wordAt_of_ne hu hb.symm⟩

/-- Settles O48: segment 0 reads as the loaded segment did, and the pc is the target. -/
theorem loadedProgramIsFetchedNext : Obligations.LoadedProgramIsFetchedNext := by
  intro b c s n hs hn hc
  obtain ⟨t, ht, hpc, hst, hprog, -⟩ := exec_loadp_of_lenOf (c := c) hn hc
  refine ⟨t, ht, fun w hw => step_of_wordAt (hst.trans hs) ?_, fun hle => step_of_len_le (hst.trans hs) (n := n) ?_ ?_⟩
  · rw [State.wordAt, hpc, hprog]
    exact hw
  · rw [State.lenOf, hprog]
    exact hn
  · rwa [hpc]

/-! ### SSTORE (R54, R102) -/

/-- SSTORE is the write to its address, then the pc moves on. -/
theorem exec_sstore_of_memWrite {a b c : Reg} (h : s.memWrite (s.readReg a) (s.readReg b) (s.readReg c) = .ok t) :
    exec (.sstore a b c) s = .next t.advance := by
  simp only [exec, execSstore, h]

/-- Settles O49: the fetch reads the memory the store wrote. -/
theorem fetchSeesTheStore : Obligations.FetchSeesTheStore := by
  intro a b c s n hs ha hn hb
  obtain ⟨t, ht⟩ := State.memWrite_of_lt (ha ▸ hn) hb (s.readReg c)
  obtain ⟨hnew, -, -, hrest⟩ := State.memWrite_ok ht
  rw [ha] at hnew
  refine ⟨t.advance, exec_sstore_of_memWrite ht, hnew, fun hpc => step_of_wordAt ?_ ?_⟩
  · rw [State.advance_status, hrest]
    exact hs
  · have htpc : t.advance.pc = s.readReg b := by
      rw [State.advance_pc, hpc, hrest]
    rw [htpc, State.advance_wordAt, hnew]

/-! ### Every word, under every instruction (R56) -/

/-- The word at an address after an instruction: as before, or SSTORE stored it, or MAP issued the identifier, or UNMAP
reclaimed it, or it is in segment 0 and LOADP replaced that. -/
theorem exec_wordAt {i : Instr} (h : exec i s = .next t) (j k : Word) :
    t.wordAt j k = s.wordAt j k ∨
    (∃ a b c, i = .sstore a b c ∧ s.readReg a = j ∧ s.readReg b = k ∧ t.wordAt j k = some (s.readReg c)) ∨
    s.issuable j ∨ t.wordAt j k = none ∨ (j = 0#32 ∧ ∃ b c, i = .loadp b c) := by
  cases exec_storageEffect h with
  | keep _ _ hseg _ => exact .inl ((State.reads_eq_of_segment (State.segment_eq_of_seg hseg j)).1 k)
  | store a b c g g' _ hg hw hseg _ =>
    have hu : s.memWrite (s.readReg a) (s.readReg b) (s.readReg c) = .ok { s with seg := t.seg } := by
      simp only [State.memWrite, hg, hw, hseg]
    obtain ⟨hnew, hother, -⟩ := State.memWrite_ok hu
    by_cases hjk : (j, k) = (s.readReg a, s.readReg b)
    · obtain ⟨rfl, rfl⟩ := Prod.mk.inj hjk
      exact .inr (.inl ⟨a, b, c, rfl, rfl, rfl, hnew⟩)
    · exact .inl (hother j k hjk)
  | map b c id _ hid hseg _ =>
    by_cases hj : j = id
    · exact .inr (.inr (.inl (hj ▸ hid)))
    · exact .inl ((State.reads_put_other hseg hj).1 k)
  | unmap c _ _ _ hseg _ =>
    have hdrop := State.segment_drop hseg j
    by_cases hj : j = s.readReg c
    · exact .inr (.inr (.inr (.inl (State.wordAt_of_absent (hdrop.trans (if_pos hj)) k))))
    · exact .inl ((State.reads_eq_of_segment (hdrop.trans (if_neg hj))).1 k)
  | loadp b c g _ _ hseg _ =>
    by_cases hj : j = 0#32
    · exact .inr (.inr (.inr (.inr ⟨hj, b, c, rfl⟩)))
    · exact .inl ((State.reads_put_other hseg hj).1 k)

/-- Settles O58: MAP issues no mapped identifier, by the invariants, so it changes no word that was readable. -/
theorem onlyStoreChangesWords : Obligations.OnlyStoreChangesWords := by
  intro i s t id k v w hs h hv hw hne
  rcases exec_wordAt h id k with he | ⟨a, b, c, hi, ha, hb, hc⟩ | hi | hnone | hl
  · rw [hv, hw] at he
    exact absurd (Option.some.inj he) hne
  · rw [hw] at hc
    exact .inl ⟨a, b, c, hi, ha, hb, (Option.some.inj hc).symm⟩
  · obtain ⟨g, hg, -⟩ := Option.bind_eq_some_iff.mp hv
    exact absurd (Option.isSome_of_eq_some hg) (State.not_live_of_issuable hs hi)
  · rw [hw] at hnone
    cases hnone
  · exact .inr hl

end Sys2Proof.Machine
end

section
/-! What the decoder makes of a word (spec/30_encoding.md R61 to R72): each field as shift and mask, the operation from OP or
from the opcode map's mask, and which fields, hence which bits, each operation uses. -/

namespace Sys2Proof

/-! ### Fields -/

/-- R62's extraction, with the offset and the width as the table gives them. -/
theorem fieldBits_toNat_shiftRight_and (lsb width : Nat) (w : Word) :
    (fieldBits lsb width w).toNat = (w.toNat >>> lsb) &&& ((1 <<< width) - 1) := by
  rw [fieldBits_toNat, Nat.shiftRight_eq_div_pow, Nat.one_shiftLeft, Nat.and_two_pow_sub_one_eq_mod]

/-- A register field that ends below bit `n` is the same in two words that agree below bit `n`. -/
theorem regField_congr {w w' : Word} {lsb n : Nat} (hn : lsb + 3 ≤ n) (h : w.toNat % 2 ^ n = w'.toNat % 2 ^ n) :
    regField lsb w = regField lsb w' := by
  have low : ∀ x : Word, x.toNat / 2 ^ lsb % 8 = x.toNat % 2 ^ n % 2 ^ (lsb + 3) / 2 ^ lsb := fun x => by
    rw [Nat.mod_mod_of_dvd _ (pow_dvd_pow 2 hn), pow_add, Nat.mod_mul_right_div_self]
    rfl
  apply regField_eq
  rw [regField_val, low, low, h]

/-- Settles O3: every field is a `fieldBits` of the word. -/
theorem sixFieldsExtracted : Obligations.SixFieldsExtracted := fun w =>
  ⟨fieldBits_toNat_shiftRight_and 28 4 w, fieldBits_toNat_shiftRight_and 6 3 w, fieldBits_toNat_shiftRight_and 3 3 w,
    fieldBits_toNat_shiftRight_and 0 3 w, fieldBits_toNat_shiftRight_and 25 3 w, fieldBits_toNat_shiftRight_and 0 25 w⟩

/-! ### Selection by OP -/

/-- Dispatch on a word whose OP is known; at a numeral the right side computes to the instruction of that row (R65). -/
theorem decode_of_op {w : Word} {op : Nat} (h : w.toNat / 2 ^ 28 = op) :
    decode w = instrOfFields { decodeFields w with op := BitVec.ofNat 4 op } := by
  have hop : (decodeFields w).op = BitVec.ofNat 4 op := by
    rw [← h, ← op_toNat, BitVec.ofNat_toNat, BitVec.setWidth_eq]
  rw [← hop]
  rfl

/-- The opcode map's mask leaves OP and nothing else (R65). -/
theorem and_opMask_toNat_div (w : Word) : (w &&& 0xF0000000#32).toNat / 2 ^ 28 = w.toNat / 2 ^ 28 := by
  have hmask : (0xF0000000#32).toNat / 2 ^ 28 = 2 ^ 4 - 1 := rfl
  rw [BitVec.toNat_and, Nat.and_div_two_pow, hmask, Nat.and_two_pow_sub_one_eq_mod]
  have := w.isLt
  omega

/-- A row of the opcode map, `match = OP * 2^28` under the mask, selects by OP. -/
theorem decode_of_opMask {w : Word} (op : Nat) (hop : op < 16) (h : w &&& 0xF0000000#32 = BitVec.ofNat 32 (op * 2 ^ 28)) :
    decode w = instrOfFields { decodeFields w with op := BitVec.ofNat 4 op } := by
  apply decode_of_op
  rw [← and_opMask_toNat_div, h, BitVec.toNat_ofNat]
  omega

/-- Settles O4, row by row. -/
theorem opcodeMapSelectsInstruction : Obligations.OpcodeMapSelectsInstruction := fun _ =>
  ⟨decode_of_opMask 0 (by decide), decode_of_opMask 1 (by decide), decode_of_opMask 2 (by decide),
    decode_of_opMask 3 (by decide), decode_of_opMask 4 (by decide), decode_of_opMask 5 (by decide),
    decode_of_opMask 6 (by decide), decode_of_opMask 7 (by decide), decode_of_opMask 8 (by decide),
    decode_of_opMask 9 (by decide), decode_of_opMask 10 (by decide), decode_of_opMask 11 (by decide),
    decode_of_opMask 12 (by decide), decode_of_opMask 13 (by decide), decode_of_opMask 14 (by decide),
    decode_of_opMask 15 (by decide)⟩

/-- Settles O7: closed words. -/
theorem specWordsDecode : Obligations.SpecWordsDecode := by
  unfold Obligations.SpecWordsDecode
  decide

/-! ### The fields an operation uses -/

/-- Two field records with one OP select the same instruction if they agree on the fields the operation uses (R63, R65). -/
theorem instrOfFields_congr {f g : Fields} (hop : f.op = g.op)
    (ha : f.op.toNat ≤ 6 → f.ra = g.ra)
    (hb : f.op.toNat ≤ 6 ∨ f.op.toNat = 8 ∨ f.op.toNat = 12 → f.rb = g.rb)
    (hc : f.op.toNat ≤ 12 → f.op.toNat ≠ 7 → f.rc = g.rc)
    (hlv : f.op.toNat = 13 → f.rl = g.rl ∧ f.vl = g.vl) : instrOfFields f = instrOfFields g := by
  unfold instrOfFields
  rw [← hop]
  split
  case h_1 | h_2 | h_3 | h_4 | h_5 | h_6 | h_7 => rw [ha (by omega), hb (by omega), hc (by omega) (by omega)]
  case h_9 | h_13 => rw [hb (by omega), hc (by omega) (by omega)]
  case h_10 | h_11 | h_12 => rw [hc (by omega) (by omega)]
  case h_14 h => rw [(hlv h).1, (hlv h).2]
  case h_8 | h_15 | h_16 => rfl

/-- The same for words, LOADV apart: they need only agree on the low bits that hold the operation's register fields. -/
theorem decode_congr {w w' : Word} (hop : w.toNat / 2 ^ 28 = w'.toNat / 2 ^ 28) (h13 : w.toNat / 2 ^ 28 ≠ 13)
    (ha : w.toNat / 2 ^ 28 ≤ 6 → w.toNat % 2 ^ 9 = w'.toNat % 2 ^ 9)
    (hb : w.toNat / 2 ^ 28 = 8 ∨ w.toNat / 2 ^ 28 = 12 → w.toNat % 2 ^ 6 = w'.toNat % 2 ^ 6)
    (hc : 9 ≤ w.toNat / 2 ^ 28 → w.toNat / 2 ^ 28 ≤ 11 → w.toNat % 2 ^ 3 = w'.toNat % 2 ^ 3) :
    decode w = decode w' := by
  have hop' : (decodeFields w).op = (decodeFields w').op :=
    BitVec.eq_of_toNat_eq (by rw [op_toNat, op_toNat, hop])
  apply instrOfFields_congr hop' <;> rw [op_toNat]
  · exact fun h => regField_congr (lsb := 6) (by decide) (ha h)
  · exact fun h => regField_congr (lsb := 3) (n := 6) (by decide) (by omega)
  · exact fun h h7 => regField_congr (lsb := 0) (n := 3) (by decide) (by omega)
  · exact fun h => absurd h h13

/-- Settles O5: in each clause the bits agreed on hold every field the operation uses. -/
theorem ignoredBitsTakeNoPart : Obligations.IgnoredBitsTakeNoPart := by
  intro w w' hop
  refine ⟨fun h12 h9 => ?_, fun h7 => ?_, fun h h6 => ?_, fun h9 h11 h3 => ?_, fun h14 => ?_⟩
  all_goals apply decode_congr hop <;> omega

/-- The only operand with a check, LOADV's immediate, has 25 bits (R66, R70). -/
theorem instrOfFields_wellFormed (f : Fields) : (instrOfFields f).WellFormed = true := by
  unfold instrOfFields
  split
  case h_14 =>
    have hvl : (f.vl.setWidth 32).toNat < 2 ^ 25 := by
      rw [BitVec.toNat_setWidth_of_le (by decide)]
      exact f.vl.isLt
    exact decide_eq_true hvl
  all_goals rfl

/-- Settles O6: it holds of whatever the fields are. -/
theorem decodedInstructionsAreWellFormed : Obligations.DecodedInstructionsAreWellFormed := fun w =>
  instrOfFields_wellFormed (decodeFields w)

/-! ### Encoded words -/

/-- Bit 9 is ignored by OP 0 to 12, so flipping it gives another word for the same instruction (R63, R72). -/
theorem decode_flip_bit9 {w : Word} (h : w.toNat / 2 ^ 28 ≤ 12) : decode (w ^^^ 0x200#32) = decode w := by
  have hop : (w ^^^ 0x200#32).toNat / 2 ^ 28 = w.toNat / 2 ^ 28 := by
    rw [BitVec.toNat_xor, Nat.xor_div_two_pow]
    exact Nat.xor_zero _
  have hlow : (w ^^^ 0x200#32).toNat % 2 ^ 9 = w.toNat % 2 ^ 9 := by
    rw [BitVec.toNat_xor, Nat.xor_mod_two_pow]
    exact Nat.xor_zero _
  obtain ⟨h9, -⟩ := ignoredBitsTakeNoPart _ _ hop
  exact h9 (hop ▸ h) hlow

/-- Settles O2; in the last clause the other word is the one with bit 9 flipped. -/
theorem encodedFieldsReadBack : Obligations.EncodedFieldsReadBack := by
  refine ⟨fun op a b c hop => ⟨encode3R_toNat hop a b c, fields_encode3R hop a b c⟩, fun l v hv => ?_,
    fun w hw => ⟨w ^^^ 0x200#32, ?_, decode_flip_bit9 hw⟩⟩
  · have hsum := encodeLV_toNat l v
    have hfields := fields_encodeLV l v
    rw [Nat.mod_eq_of_lt hv] at hsum hfields
    exact ⟨hsum, hfields⟩
  · simp

/-- Settles O1, by the round trip of each constructor. -/
theorem decodeOfEncodeIsIdentity : Obligations.DecodeOfEncodeIsIdentity
  | .cmov a b c => Laws.RoundTrip.cmov a b c
  | .sload a b c => Laws.RoundTrip.sload a b c
  | .sstore a b c => Laws.RoundTrip.sstore a b c
  | .add a b c => Laws.RoundTrip.add a b c
  | .mul a b c => Laws.RoundTrip.mul a b c
  | .div a b c => Laws.RoundTrip.div a b c
  | .nand a b c => Laws.RoundTrip.nand a b c
  | .halt => Laws.RoundTrip.halt
  | .map b c => Laws.RoundTrip.map b c
  | .unmap c => Laws.RoundTrip.unmap c
  | .out c => Laws.RoundTrip.out c
  | .inp c => Laws.RoundTrip.inp c
  | .loadp b c => Laws.RoundTrip.loadp b c
  | .loadv l v => Laws.RoundTrip.loadv l v
  | .invalid14 => Laws.RoundTrip.invalid14
  | .invalid15 => Laws.RoundTrip.invalid15

end Sys2Proof
end

section
/-! What an instruction does to the status and the pc: the effects of `exec_effect` sorted by how control goes on
(spec/40_engine.md R84, R87). -/

namespace Sys2Proof.Machine

variable {s t : State}

/-- The ways from `s` to a state `t` as far as control goes: a wait, a fatal condition, the failure event that an IN consumes
on its way to one, HALT, the jump of LOADP, and for every other instruction the next pc. -/
inductive ControlEffect (s : State) : Instr → State → Prop where
  | wait (i : Instr) (h : waits i s = true) : ControlEffect s i s
  | fatal (i : Instr) (k : FatalKind) : ControlEffect s i (s.failed k)
  | inputFailure (c : Reg) (rest : List InEvent) (h : s.input = .failure :: rest) :
      ControlEffect s (.inp c) { s.failed .inputFailure with input := rest }
  | halt : ControlEffect s .halt s.stop
  | jump (b c : Reg) (t : State) (hpc : t.pc = s.readReg c) (hst : t.status = s.status) : ControlEffect s (.loadp b c) t
  | advance (i : Instr) (t : State) (hh : i ≠ .halt) (hl : ∀ b c, i ≠ .loadp b c) (hpc : t.pc = s.pc + 1#32)
      (hst : t.status = s.status) : ControlEffect s i t

/-- Everything an instruction can do to the status and the pc. -/
theorem exec_controlEffect {i : Instr} (h : exec i s = .next t) : ControlEffect s i t := by
  cases exec_effect h
  case outWait c hle hr => exact .wait _ (by simp [waits, hle, hr])
  case inWait c hin => exact .wait _ (by simp [waits, hin])
  case inFailure c rest hin => exact .inputFailure c rest hin
  case halt => exact .halt
  case loadpJump b c _ _ _ => exact .jump b c _ rfl rfl
  case loadp b c _ _ _ _ => exact .jump b c _ rfl rfl
  case sloadAbsent | sloadPast | sstoreAbsent | sstorePast | divZero | mapNoStorage | mapNoIdentifier | unmapZero |
      unmapAbsent | outLarge | loadpAbsent | loadpNoStorage | invalid14 | invalid15 =>
    exact .fatal _ _
  all_goals exact .advance _ _ nofun nofun rfl rfl

/-- R87 for an instruction. -/
theorem exec_changes_only_status_of_fatal {i : Instr} {k : FatalKind} (hs : s.status = .running) (h : exec i s = .next t)
    (hk : t.status = .fatal k) :
    t = s.failed k ∨
    (k = .inputFailure ∧ ∃ rest, s.input = .failure :: rest ∧ t = { s.failed k with input := rest }) := by
  cases exec_controlEffect h with
  | wait => simp [hs] at hk
  | fatal _ k' =>
    obtain rfl : k' = k := by simpa using hk
    exact .inl rfl
  | inputFailure _ rest hin =>
    obtain rfl : .inputFailure = k := by simpa using hk
    exact .inr ⟨rfl, rest, hin, rfl⟩
  | halt => simp at hk
  | jump _ _ _ _ hst => simp [hst, hs] at hk
  | advance _ _ _ _ _ hst => simp [hst, hs] at hk

/-- Settles O13: the fetch raises its condition and nothing else, and so does every instruction but the IN of a failure. -/
theorem fatalStepChangesOnlyStatus : Obligations.FatalStepChangesOnlyStatus := by
  intro s t k hs h hk
  rcases step_cases h with ⟨hne, -⟩ | ⟨-, -, rfl⟩ | ⟨-, w, -, hx⟩
  · exact absurd hs hne
  · obtain rfl : .pcOutOfRange = k := by simpa using hk
    exact .inl rfl
  · exact exec_changes_only_status_of_fatal hs hx hk

/-- Settles O16: the pc of each control effect; the status tells the fatal ones from the others. -/
theorem pcUpdateRule : Obligations.PcUpdateRule := by
  intro i s t hs hw h
  cases exec_controlEffect h with
  | wait _ hwait => simp [hw] at hwait
  | fatal _ k => exact ⟨fun _ => rfl, fun hne => absurd rfl (hne k)⟩
  | inputFailure => exact ⟨fun _ => rfl, fun hne => absurd rfl (hne .inputFailure)⟩
  | halt => exact ⟨fun _ => rfl, fun _ => ⟨fun _ => rfl, nofun, fun hne _ => absurd rfl hne⟩⟩
  | jump b c _ hpc hst =>
    refine ⟨fun ⟨k, hk⟩ => ?_, fun _ => ⟨nofun, fun _ _ hi => ?_, fun _ hne => absurd rfl (hne b c)⟩⟩
    · simp [hst, hs] at hk
    · obtain ⟨-, rfl⟩ := Instr.loadp.inj hi
      exact hpc
  | advance _ _ hh hl hpc hst =>
    refine ⟨fun ⟨k, hk⟩ => ?_, fun _ => ⟨fun hi => absurd hi hh, fun b c hi => absurd hi (hl b c), fun _ _ => ?_⟩⟩
    · simp [hst, hs] at hk
    · rw [hpc, BitVec.toNat_add]
      rfl

/-- Settles O9: the decoder gives well-formed instructions only, and the fetch finds the word. -/
theorem stepRunsDecodedInstruction : Obligations.StepRunsDecodedInstruction :=
  fun _ w hs hw => ⟨decodedInstructionsAreWellFormed w, step_of_wordAt hs hw⟩

/-- Settles O11: both terminal statuses absorb. -/
theorem endedMachineStays : Obligations.EndedMachineStays := by
  intro s hs
  cases hst : s.status with
  | running => exact absurd hst hs
  | halted => simp only [step, engineStep, hst]
  | fatal k => simp only [step, engineStep, hst]

end Sys2Proof.Machine
end

section
/-! IN and OUT: a wait, and the effect once the environment has answered (spec/40_engine.md R88,
spec/45_output_input.md R117 to R120). -/

namespace Sys2Proof.Machine

variable {s t : State}

theorem keepsMemory_of_seg (h : t.seg = s.seg) : KeepsMemory s t :=
  ⟨fun id => (State.reads_eq_of_segment (State.segment_eq_of_seg h id)).1,
    fun id => (State.reads_eq_of_segment (State.segment_eq_of_seg h id)).2, h⟩

theorem keepsRegistersBut_of_x {d : Reg} {v : Word} (h : t.x = s.x.set d v) : KeepsRegistersBut d s t := fun r hr =>
  (State.readReg_eq_of_x (s := s.writeReg d v) h r).trans (s.readReg_writeReg_other hr v)

/-- R118: the byte of IN is the number the register then holds. -/
theorem wordOfByte_toNat (b : Byte) : (wordOfByte b).toNat = b.toNat :=
  BitVec.toNat_setWidth_of_le (by decide)

/-- R117: the byte OUT emits is the number the register holds. -/
theorem setWidth_eight_toNat {v : Word} (h : v.toNat ≤ 255) : (v.setWidth 8).toNat = v.toNat := by
  rw [BitVec.toNat_setWidth, Nat.mod_eq_of_lt (Nat.lt_succ_of_le h)]

/-- Settles O42: the two waits, and the two effects in the state the environment's answer gives. -/
theorem waitsChangeNothing : Obligations.WaitsChangeNothing := by
  refine fun c s => ⟨fun hin => ⟨effect_exec (.inWait c hin), fun v => ?_⟩,
    fun hle hr => ⟨effect_exec (.outWait c hle hr), ?_⟩⟩
  · have hin' : (s.envAct (.deliver (.byte v))).input = [.byte v] := by simp [hin]
    refine ⟨_, effect_exec (.inByte c v [] hin'), ?_, rfl, rfl, keepsRegistersBut_of_x rfl, keepsMemory_of_seg rfl⟩
    rw [State.advance_readReg, State.readReg_writeReg_same, wordOfByte_toNat]
  · exact ⟨_, _, effect_exec (.out c hle rfl), setWidth_eight_toNat hle, rfl, rfl, fun _ => rfl, keepsMemory_of_seg rfl⟩

end Sys2Proof.Machine
end

section
/-! CMOV, SLOAD, SSTORE (spec/41_cmov_sload_sstore.md R100 to R102), with what every instruction that writes one register and
goes on shares: its word and its frame. -/

namespace Sys2Proof.Machine

/-- A three-register word, its ignored bits any; at a numeral `op` the right side computes to the instruction (R63, R65). -/
theorem decode_of_hasFields {w : Word} {op : Nat} {a b c : Reg} (h : HasFields w op a b c) :
    decode w = instrOfFields { decodeFields w with op := BitVec.ofNat 4 op, ra := a, rb := b, rc := c } := by
  obtain ⟨hop, ha, hb, hc⟩ := h
  have hc' : w.toNat / 2 ^ 0 % 8 = c.val := by rw [pow_zero, Nat.div_one, hc]
  rw [decode_of_op hop, ← regField_eq ha, ← regField_eq hb, ← regField_eq hc']
  rfl

/-- The frame of an instruction that goes on without a write. -/
theorem keepsAllButRegister_advance (d : Reg) (s : State) : KeepsAllButRegister d s s.advance :=
  ⟨fun _ _ => rfl, keepsMemory_of_seg rfl, ⟨rfl, rfl⟩, ⟨rfl, rfl, rfl⟩, rfl, rfl⟩

/-- The frame of an instruction that writes one register and goes on. -/
theorem keepsAllButRegister_writeReg_advance (d : Reg) (v : Word) (s : State) :
    KeepsAllButRegister d s (s.writeReg d v).advance :=
  ⟨keepsRegistersBut_of_x rfl, keepsMemory_of_seg rfl, ⟨rfl, rfl⟩, ⟨rfl, rfl, rfl⟩, rfl, rfl⟩

/-- Settles O23: the condition decides between the two effects, a write to `x[A]` and none. -/
theorem cmovMovesWhenNonzero : Obligations.CmovMovesWhenNonzero := by
  refine fun a b c s => ⟨fun _ => decode_of_hasFields, encode3R_toNat (op := 0) (by decide) a b c, ?_⟩
  by_cases hc : s.readReg c = 0#32
  · exact ⟨_, effect_exec (.cmovKeep a b c hc), fun hne => absurd hc hne, fun _ => rfl, rfl,
      keepsAllButRegister_advance a s⟩
  · exact ⟨_, effect_exec (.cmovMove a b c hc), fun _ => State.readReg_writeReg_same s a _, fun h0 => absurd h0 hc, rfl,
      keepsAllButRegister_writeReg_advance a _ s⟩

/-- Settles O24: the segment's length tells the three effects apart, and below it the segment gives the word. -/
theorem sloadReadsSegmentWord : Obligations.SloadReadsSegmentWord := by
  refine fun a b c s => ⟨fun _ => decode_of_hasFields, encode3R_toNat (op := 1) (by decide) a b c,
    fun hn => effect_exec (.sloadAbsent a b c (State.absent_of_lenOf hn)), fun n hn hi => ?_, fun n hn hi => ?_⟩
  all_goals obtain ⟨g, hg, rfl⟩ := State.segment_of_lenOf hn
  · exact effect_exec (.sloadPast a b c g hg hi)
  · have hr := Segment.read_lt hi
    refine ⟨_, effect_exec (.sload a b c g _ hg hi hr), ?_, rfl, keepsAllButRegister_writeReg_advance a _ s⟩
    rw [State.advance_readReg, State.readReg_writeReg_same, State.wordAt_of_segment hg, hr]

/-- Settles O25: the same three cases; the write that succeeds changes nothing but memory, and there one word (R48). -/
theorem sstoreWritesSegmentWord : Obligations.SstoreWritesSegmentWord := by
  refine fun a b c s => ⟨fun _ => decode_of_hasFields, encode3R_toNat (op := 2) (by decide) a b c,
    fun hn => effect_exec (.sstoreAbsent a b c (State.absent_of_lenOf hn)), fun n hn hi => ?_, fun n hn hi => ?_⟩
  · obtain ⟨g, hg, rfl⟩ := State.segment_of_lenOf hn
    exact effect_exec (.sstorePast a b c g hg hi)
  · obtain ⟨t, ht⟩ := State.memWrite_of_lt hn hi (s.readReg c)
    obtain ⟨hnew, hother, hlen, hframe⟩ := State.memWrite_ok ht
    refine ⟨t.advance, exec_sstore_of_memWrite ht, hnew, hother, hlen, ?_⟩
    rw [hframe]
    exact ⟨rfl, fun _ => rfl, ⟨rfl, rfl⟩, ⟨rfl, rfl, rfl⟩, rfl, rfl⟩

end Sys2Proof.Machine
end

section
/-! ADD, MUL, DIV, NAND (spec/42_add_mul_div_nand.md R103 to R106) and the arithmetic laws (R108, R109). -/

namespace Sys2Proof.Machine

/-- What the destination reads after an instruction that writes it and goes on. -/
theorem State.readReg_writeReg_advance (s : State) (r : Reg) (v : Word) : (s.writeReg r v).advance.readReg r = v := by
  rw [State.advance_readReg, State.readReg_writeReg_same]

theorem sumWord_toNat (b c : Word) : (sumWord b c).toNat = (b.toNat + c.toNat) % 2 ^ 32 := BitVec.toNat_ofNat _ _

theorem productWord_toNat (b c : Word) : (productWord b c).toNat = (b.toNat * c.toNat) % 2 ^ 32 := BitVec.toNat_ofNat _ _

/-- R105: the quotient cannot overflow. -/
theorem quotient_toNat (b c : Word) : (BitVec.ofNat 32 (b.toNat / c.toNat)).toNat = b.toNat / c.toNat := by
  rw [BitVec.toNat_ofNat, Nat.mod_eq_of_lt ((Nat.div_le_self _ _).trans_lt b.isLt)]

theorem nandWord_getLsbD (b c : Word) {j : Nat} (hj : j < 32) :
    (nandWord b c).getLsbD j = true ↔ ¬ (b.getLsbD j = true ∧ c.getLsbD j = true) := by
  simp only [nandWord, BitVec.getLsbD_not, BitVec.getLsbD_and, hj, decide_true, Bool.true_and, Bool.not_eq_true',
    ← Bool.and_eq_true, Bool.not_eq_true]

/-- R108: ADD is the sum of the ring of words, whose laws are the library's. -/
theorem sumWord_eq_add (b c : Word) : sumWord b c = b + c := BitVec.eq_of_toNat_eq (sumWord_toNat b c)

/-- R108: MUL is the product of the ring of words. -/
theorem productWord_eq_mul (b c : Word) : productWord b c = b * c := BitVec.eq_of_toNat_eq (productWord_toNat b c)

/-- Settles O26: the destination holds the sum, and the number of a word is taken modulo 2^32. -/
theorem addWrapsModulo : Obligations.AddWrapsModulo := by
  refine fun a b c s => ⟨fun _ => decode_of_hasFields, encode3R_toNat (op := 3) (by decide) a b c,
    _, effect_exec (.add a b c), ?_, rfl, keepsAllButRegister_writeReg_advance a _ s⟩
  rw [State.readReg_writeReg_advance, sumWord_toNat]

/-- Settles O27: the destination holds the product, and the number of a word is taken modulo 2^32. -/
theorem mulKeepsLowWord : Obligations.MulKeepsLowWord := by
  refine fun a b c s => ⟨fun _ => decode_of_hasFields, encode3R_toNat (op := 4) (by decide) a b c,
    _, effect_exec (.mul a b c), ?_, rfl, keepsAllButRegister_writeReg_advance a _ s⟩
  rw [State.readReg_writeReg_advance, productWord_toNat]

/-- Settles O28: the divisor tells the two effects apart, and the quotient is no more than the dividend, so it fits. -/
theorem divTruncatesOrFails : Obligations.DivTruncatesOrFails := by
  refine fun a b c s => ⟨fun _ => decode_of_hasFields, encode3R_toNat (op := 5) (by decide) a b c,
    fun h0 => effect_exec (.divZero a b c h0), fun hne =>
      ⟨_, effect_exec (.div a b c hne), ?_, rfl, keepsAllButRegister_writeReg_advance a _ s⟩⟩
  rw [State.readReg_writeReg_advance, quotient_toNat]

/-- Settles O29: the destination holds the complement of the AND, of which each bit is read alone. -/
theorem nandComplementsAnd : Obligations.NandComplementsAnd := by
  refine fun a b c s => ⟨fun _ => decode_of_hasFields, encode3R_toNat (op := 6) (by decide) a b c,
    _, effect_exec (.nand a b c), fun j hj => ?_, rfl, keepsAllButRegister_writeReg_advance a _ s⟩
  rw [State.readReg_writeReg_advance, nandWord_getLsbD _ _ hj]

theorem sumWord_comm (b c : Word) : sumWord b c = sumWord c b := by
  simp only [sumWord_eq_add, BitVec.add_comm]

theorem productWord_comm (b c : Word) : productWord b c = productWord c b := by
  simp only [productWord_eq_mul, BitVec.mul_comm]

/-- Settles O30: the effects of ADD and MUL read their sources through the sum and the product, and those are the ring's. -/
theorem addAndMulCommute : Obligations.AddAndMulCommute := by
  refine ⟨fun a b c s => ⟨?_, ?_⟩, fun b c d => ⟨sumWord_toNat b c, productWord_toNat b c, sumWord_comm b c,
    productWord_comm b c, ?_, ?_, ?_⟩⟩
  · rw [effect_exec (.add a b c), effect_exec (.add a c b), sumWord_comm]
  · rw [effect_exec (.mul a b c), effect_exec (.mul a c b), productWord_comm]
  · simp only [sumWord_eq_add, BitVec.add_assoc]
  · simp only [productWord_eq_mul, BitVec.mul_assoc]
  · simp only [sumWord_eq_add, productWord_eq_mul, BitVec.mul_add]

/-- Settles O31: by O28 the result's number is the floor of the quotient, from which every row is a fact about numbers. -/
theorem divisionAtEveryCombination : Obligations.DivisionAtEveryCombination := by
  intro a b c s
  obtain ⟨-, -, hzero, hnonzero⟩ := divTruncatesOrFails a b c s
  refine ⟨hzero, fun hne => ?_⟩
  obtain ⟨t, ht, hq, -, -⟩ := hnonzero hne
  have hpos : 0 < (s.readReg c).toNat := Nat.pos_of_ne_zero fun h0 => hne (BitVec.eq_of_toNat_eq h0)
  have hres {v : Word} (hv : (s.readReg b).toNat / (s.readReg c).toNat = v.toNat) : t.readReg a = v :=
    BitVec.eq_of_toNat_eq (hq.trans hv)
  refine ⟨t, ht, fun hb => hres ?_, fun hlt => hres (Nat.div_eq_of_lt hlt), fun hle => ?_,
    fun hb hc => hres ?_, fun hb hc => hres ?_, fun hb hc => hres ?_⟩
  · rw [hb]
    exact Nat.zero_div _
  · rw [hq]
    exact ⟨Nat.div_pos hle hpos, Nat.div_le_self _ _, Nat.div_mul_le_self _ _,
      (Nat.div_lt_iff_lt_mul hpos).1 (Nat.lt_succ_self _)⟩
  all_goals rw [hb, hc]; rfl

end Sys2Proof.Machine
end

section
/-! HALT (spec/43_halt.md R110). -/

namespace Sys2Proof.Machine

/-- R110: HALT changes the status alone. -/
theorem State.stop_frame (s : State) :
    s.stop.pc = s.pc ∧ KeepsRegisters s s.stop ∧ KeepsMemory s s.stop ∧ KeepsPool s s.stop ∧ KeepsStreams s s.stop ∧
      s.stop.capWords = s.capWords :=
  ⟨s.stop_pc, s.stop_readReg, keepsMemory_of_seg s.stop_seg, ⟨s.stop_free, s.stop_reuses⟩,
    ⟨s.stop_input, s.stop_out, s.stop_sinkReady⟩, s.stop_capWords⟩

/-- R110, R89: the state HALT leaves has ended, so the next step keeps it. -/
theorem step_stop (s : State) : step s.stop = .next s.stop :=
  endedMachineStays s.stop (by simp)

/-- Settles O32: HALT's one effect is `stop`, which is terminal and whose frame is the whole state but the status. -/
theorem haltEndsTheRun : Obligations.HaltEndsTheRun := by
  refine ⟨fun w hop => decode_of_op hop, rfl, fun s => ?_⟩
  obtain ⟨hpc, hregs, hmem, hpool, hstreams, hcap⟩ := s.stop_frame
  exact ⟨s.stop, effect_exec .halt, s.stop_status, hpc, hregs, hmem, hpool, hstreams, hcap, step_stop s⟩

end Sys2Proof.Machine
end

section
/-! MAP (spec/44_map_unmap.md R111, R113, R114): it is exhausted, or it creates a segment under an issuable identifier. Which
identifiers are issuable then tells the policies' choices apart. -/

namespace Sys2Proof.Machine

/-- What MAP leaves once it has an identifier (R111): the segment of zeros under it, the identifier in register `b` and out
of the pool, and everything else as it was. -/
structure MapCreates (b c : Reg) (id : Word) (s t : State) : Prop where
  readReg_eq : t.readReg b = id
  seg_eq : t.seg = Assoc.put id.toNat (Segment.zeros (s.readReg c).toNat) s.seg
  free_eq : t.free = s.free.filter (· != id)
  keepsRegistersBut : KeepsRegistersBut b s t
  pc_eq : t.pc = s.pc + 1#32
  keepsStreams : KeepsStreams s t
  keepsControl : KeepsControl s t

variable {s t : State} {b c : Reg} {id : Word} {n : Nat}

/-! ### The two outcomes -/

theorem State.mapExhausted_eq_true_iff :
    s.mapExhausted n = true ↔ s.capacity n = false ∨ s.free = [] ∧ 2 ^ 32 ≤ s.nextId := by
  simp only [State.mapExhausted, Bool.or_eq_true, Bool.not_eq_true', Bool.and_eq_true, List.isEmpty_iff,
    decide_eq_true_eq]

theorem State.mapExhausted_eq_false_iff :
    s.mapExhausted n = false ↔ s.capacity n = true ∧ (s.free = [] → s.nextId < 2 ^ 32) := by
  rw [← Bool.not_eq_true, State.mapExhausted_eq_true_iff, not_or, Bool.not_eq_false, not_and, Nat.not_le]

/-- R140: with no storage or no identifier left, MAP raises its condition. -/
theorem exec_map_of_mapExhausted (h : s.mapExhausted (s.readReg c).toNat = true) :
    exec (.map b c) s = .next (s.failed .resourceExhausted) := by
  rcases State.mapExhausted_eq_true_iff.mp h with hc | ⟨hf, hn⟩
  · exact effect_exec (.mapNoStorage b c hc)
  · cases hc : s.capacity (s.readReg c).toNat with
    | false => exact effect_exec (.mapNoStorage b c hc)
    | true => exact effect_exec (.mapNoIdentifier b c hc hf hn)

/-- R113: otherwise MAP creates the segment under an identifier it may issue. -/
theorem exec_map_of_not_mapExhausted (h : s.mapExhausted (s.readReg c).toNat = false) :
    ∃ t id, exec (.map b c) s = .next t ∧ s.issuable id ∧ MapCreates b c id s t := by
  obtain ⟨hcap, hnext⟩ := State.mapExhausted_eq_false_iff.mp h
  rcases s.alloc_cases (s.readReg c).toNat with ⟨hc, -⟩ | ⟨hc, id, hp, hid, -⟩ | ⟨hc, hf, hn, -⟩ | ⟨-, hf, hn, -⟩
  · exact absurd hcap (Bool.eq_false_iff.mp hc)
  · exact ⟨_, id, effect_exec (.mapReuse b c id hc hp hid), .inl hid,
      ⟨State.readReg_writeReg_advance _ b id, rfl, rfl, keepsRegistersBut_of_x rfl, rfl, ⟨rfl, rfl, rfl⟩, rfl, rfl⟩⟩
  · have hid : (BitVec.ofNat 32 s.nextId).toNat = s.nextId := Nat.mod_eq_of_lt hn
    exact ⟨_, BitVec.ofNat 32 s.nextId, effect_exec (.mapFresh b c hc hf hn), .inr ⟨hf, hid⟩,
      ⟨State.readReg_writeReg_advance _ b _, by rw [hid]; rfl, by simp [hf], keepsRegistersBut_of_x rfl, rfl,
        ⟨rfl, rfl, rfl⟩, rfl, rfl⟩⟩
  · exact absurd (hnext hf) (Nat.not_lt.mpr hn)

/-- R113: with storage and a pool that is not empty, MAP reuses a member of the pool. -/
theorem exec_map_of_free_ne_nil (hc : s.capacity (s.readReg c).toNat = true) (hf : s.free ≠ []) :
    ∃ t id, exec (.map b c) s = .next t ∧ id ∈ s.free ∧ MapCreates b c id s t := by
  obtain ⟨t, id, ht, hid, hm⟩ := exec_map_of_not_mapExhausted (b := b)
    (State.mapExhausted_eq_false_iff.mpr ⟨hc, fun hnil => absurd hnil hf⟩)
  exact ⟨t, id, ht, hid.resolve_right fun hfresh => hf hfresh.1, hm⟩

/-- R113: with storage, an empty pool and `next_id` below 2^32, MAP issues `next_id`. -/
theorem exec_map_of_free_eq_nil (hc : s.capacity (s.readReg c).toNat = true) (hf : s.free = [])
    (hn : s.nextId < 2 ^ 32) :
    ∃ t id, exec (.map b c) s = .next t ∧ id.toNat = s.nextId ∧ MapCreates b c id s t := by
  obtain ⟨t, id, ht, hid, hm⟩ := exec_map_of_not_mapExhausted (b := b)
    (State.mapExhausted_eq_false_iff.mpr ⟨hc, fun _ => hn⟩)
  have hnot : id ∉ s.free := by simp [hf]
  exact ⟨t, id, ht, (hid.resolve_left hnot).2, hm⟩

/-! ### Reading the state MAP leaves -/

theorem MapCreates.lenOf_eq (h : MapCreates b c id s t) : t.lenOf id = some (s.readReg c).toNat :=
  State.lenOf_of_segment (State.segment_put_same h.seg_eq)

theorem MapCreates.wordAt_eq_zero (h : MapCreates b c id s t) (i : Word) (hi : i.toNat < (s.readReg c).toNat) :
    t.wordAt id i = some 0#32 :=
  (State.wordAt_of_segment (State.segment_put_same h.seg_eq) i).trans (Segment.read_zeros hi)

theorem MapCreates.keepsSegmentsBut (h : MapCreates b c id s t) : KeepsSegmentsBut id s t :=
  fun _ hj => State.reads_put_other h.seg_eq hj

theorem MapCreates.mem_free_iff (h : MapCreates b c id s t) (z : Word) : z ∈ t.free ↔ z ∈ s.free ∧ z ≠ id := by
  rw [h.free_eq, List.mem_filter, bne_iff_ne]

/-- A pool whose only member is issued is empty after it. -/
theorem MapCreates.free_eq_nil (h : MapCreates b c id s t) (hf : ∀ z ∈ s.free, z = id) : t.free = [] :=
  List.eq_nil_iff_forall_not_mem.mpr fun z hz =>
    have ⟨hzs, hne⟩ := (h.mem_free_iff z).mp hz
    hne (hf z hzs)

/-! ### The statements -/

/-- Settles O33: under the invariants an issuable identifier is not mapped, and so it is not 0 either (R26). -/
theorem mapCreatesZeroSegment : Obligations.MapCreatesZeroSegment := by
  refine fun b c => ⟨fun _ _ => decode_of_hasFields, encode3R_toNat (op := 8) (by decide) 0 b c,
    fun s hs => ⟨exec_map_of_mapExhausted, fun hne => ?_⟩⟩
  obtain ⟨t, id, ht, hid, hm⟩ := exec_map_of_not_mapExhausted (b := b) hne
  have ⟨_, h0, _⟩ := hs
  have hnew : ¬ s.live id.toNat := State.not_live_of_issuable hs hid
  have hid0 : id ≠ 0#32 := fun e => hnew (e ▸ h0)
  exact ⟨t, id, ht, hm.readReg_eq, hid0, Bool.eq_false_iff.mpr hnew, hm.lenOf_eq, hm.wordAt_eq_zero,
    fun hp => ((hm.mem_free_iff id).mp hp).2 rfl, hm.keepsSegmentsBut, hm.keepsRegistersBut, hm.pc_eq,
    hm.keepsStreams, hm.keepsControl⟩

/-- Settles O34: the pool decides between reuse and `next_id`, and `next_id` is at least 1. -/
theorem allocatorReusesBeforeFresh : Obligations.AllocatorReusesBeforeFresh := by
  refine fun b c s => ⟨fun hc => ?_, fun hc hf => ?_, fun _ hf hn => ?_, fun hc hf hn => ?_⟩
  · exact exec_map_of_mapExhausted (State.mapExhausted_eq_true_iff.mpr (.inl hc))
  · obtain ⟨t, id, ht, hid, hm⟩ := exec_map_of_free_ne_nil (b := b) hc hf
    refine ⟨t, ht, ?_⟩
    rw [hm.readReg_eq]
    exact ⟨hid, fun h0 e => h0 (e ▸ hid), hm.mem_free_iff, hm.lenOf_eq, hm.wordAt_eq_zero⟩
  · exact exec_map_of_mapExhausted (State.mapExhausted_eq_true_iff.mpr (.inr ⟨hf, hn.ge⟩))
  · obtain ⟨t, id, ht, hid, hm⟩ := exec_map_of_free_eq_nil (b := b) hc hf hn
    have hid0 : id ≠ 0#32 := fun e => by
      have h1 := s.one_le_nextId
      rw [← hid, e] at h1
      exact absurd h1 (by decide)
    refine ⟨t, ht, ?_⟩
    rw [hm.readReg_eq]
    exact ⟨hid, hid0, hm.free_eq_nil (by simp [hf]), hm.lenOf_eq, hm.wordAt_eq_zero⟩

/-- Reuse from a pool of one member, which every policy returns (R114). -/
theorem exec_map_of_free_eq_singleton (hf : s.free = [id]) (hc : s.capacity (s.readReg c).toNat = true) :
    ∃ t, exec (.map b c) s = .next t ∧ MapCreates b c id s t ∧ t.free = [] := by
  obtain ⟨t, id', ht, hid, hm⟩ := exec_map_of_free_ne_nil (b := b) hc (by simp [hf])
  obtain rfl : id' = id := List.mem_singleton.mp (hf ▸ hid)
  exact ⟨t, ht, hm, hm.free_eq_nil (by simp [hf])⟩

/-- Settles O35: a member of the pool is its only member. -/
theorem onlyFreeIdentifierIsReused : Obligations.OnlyFreeIdentifierIsReused := by
  intro b c s id hf hc
  obtain ⟨t, ht, hm, hnil⟩ := exec_map_of_free_eq_singleton (b := b) hf hc
  exact ⟨t, ht, hm.readReg_eq, hnil⟩

end Sys2Proof.Machine
end

section
/-! UNMAP (spec/44_map_unmap.md R112, R115), what both instructions do to the pool, and the storage they and the others take
(R116). -/

namespace Sys2Proof.Machine

variable {s t : State}

/-! ### UNMAP -/

theorem State.release_segment (s : State) (id j : Word) :
    (s.release id).segment? j = if j = id then none else s.segment? j :=
  State.segment_drop rfl j

/-- Settles O37: the mapped case releases the identifier, whose segment is then absent. -/
theorem unmapReclaimsSegment : Obligations.UnmapReclaimsSegment := by
  refine fun c => ⟨fun _ _ _ => decode_of_hasFields, encode3R_toNat (op := 9) (by decide) 0 0 c,
    fun s => ⟨fun h0 => effect_exec (.unmapZero c h0), fun hne hm => effect_exec (.unmapAbsent c hne hm),
      fun hne hm => ?_⟩⟩
  have habsent : (s.release (s.readReg c)).segment? (s.readReg c) = none :=
    (s.release_segment _ _).trans (if_pos rfl)
  refine ⟨_, effect_exec (.unmap c hne hm), Option.isSome_eq_false_iff.mpr (Option.isNone_iff_eq_none.mpr habsent),
    State.wordAt_of_absent habsent, fun z => ?_, fun j hj => ?_, fun _ => rfl, rfl, ⟨rfl, rfl, rfl⟩, ⟨rfl, rfl⟩, rfl⟩
  · rw [State.advance_free, State.release_free, List.mem_insert_iff, or_comm]
  · exact State.reads_eq_of_segment ((s.release_segment _ j).trans (if_neg hj))

/-- Settles O39: UNMAP leaves a pool of one member, which MAP then has to reuse. -/
theorem mapAfterUnmapIsFresh : Obligations.MapAfterUnmapIsFresh := by
  intro b c d s hf hne hm
  have hpool : (s.release (s.readReg c)).advance.free = [s.readReg c] := by
    rw [State.advance_free, State.release_free, hf]
    rfl
  refine ⟨_, effect_exec (.unmap c hne hm), fun hcap => ?_⟩
  obtain ⟨u, hu, hmap, hnil⟩ := exec_map_of_free_eq_singleton (b := b) (c := d) hpool hcap
  exact ⟨u, hu, hmap.readReg_eq, hnil, hmap.lenOf_eq, hmap.wordAt_eq_zero⟩

/-! ### The pool -/

/-- Settles O59: two effects touch the pool, the reuse by MAP and the release by UNMAP. -/
theorem poolChangesOnlyByMapAndUnmap : Obligations.PoolChangesOnlyByMapAndUnmap := by
  intro i s t z h
  cases exec_effect h
  case mapReuse b c id _ _ _ =>
    refine ⟨fun hz hn => absurd (List.mem_of_mem_filter hz) hn, fun hz hn => ⟨b, c, rfl, ?_⟩⟩
    have hid : z = id := by
      by_contra hne
      exact hn (List.mem_filter.mpr ⟨hz, bne_iff_ne.mpr hne⟩)
    rw [State.readReg_writeReg_advance, hid]
  case unmap c _ hm =>
    refine ⟨fun hz hn => ?_, fun hz hn => absurd (List.mem_insert_of_mem hz) hn⟩
    obtain rfl : z = s.readReg c := (List.mem_insert_iff.mp hz).resolve_right hn
    exact ⟨c, rfl, rfl, hm⟩
  all_goals exact ⟨fun hz hn => absurd hz hn, fun hz hn => absurd hz hn⟩

/-! ### Storage (R116, R122) -/

theorem State.fits_of_le {m n : Nat} (hn : s.fits n = true) (h : m ≤ n) : s.fits m = true := by
  unfold State.fits at hn ⊢
  cases hc : s.capWords with
  | none => rfl
  | some cap =>
    simp only [hc, decide_eq_true_eq] at hn ⊢
    exact h.trans hn

/-- The words of all mapped segments but the one under `id`. -/
def State.wordsBut (s : State) (id : Nat) : Nat := ((Assoc.drop id s.seg).map (fun e => e.2.len)).sum

/-- R122 leaves out segment 0. -/
theorem State.dataWords_eq_wordsBut (s : State) : s.dataWords = s.wordsBut 0 := rfl

theorem State.wordsBut_le_totalWords (s : State) (id : Nat) : s.wordsBut id ≤ s.totalWords :=
  (List.filter_sublist.map _).sum_le_sum fun _ _ => Nat.zero_le _

theorem State.totalWords_put {id : Nat} {g : Segment} (hs : Assoc.sorted s.seg = true)
    (h : t.seg = Assoc.put id g s.seg) : t.totalWords = g.len + s.wordsBut id := by
  rw [State.totalWords, h, Assoc.sum_put _ _ _ hs, State.wordsBut]

/-- Replacing a mapped segment by one of the same length keeps the number of words. -/
theorem State.totalWords_replace {id : Nat} {g g' : Segment} (hs : Assoc.sorted s.seg = true)
    (hg : Assoc.find id s.seg = some g) (hlen : g'.len = g.len) (h : t.seg = Assoc.put id g' s.seg) :
    t.totalWords = s.totalWords := by
  rw [State.totalWords_put hs h, hlen, State.totalWords, Assoc.sum_split _ hs hg, State.wordsBut]

/-- MAP's capacity test covers the segment it adds. -/
theorem State.fits_totalWords_of_capacity {id n : Nat} (hs : Assoc.sorted s.seg = true) (hc : s.capacity n = true)
    (h : t.seg = Assoc.put id (Segment.zeros n) s.seg) : s.fits t.totalWords = true :=
  State.fits_of_le hc (by
    rw [State.totalWords_put hs h]
    exact Nat.add_le_add_left (s.wordsBut_le_totalWords id) n)

theorem exec_capWords {i : Instr} (h : exec i s = .next t) : t.capWords = s.capWords := by
  cases exec_effect h <;> rfl

/-- An instruction leaves no more words mapped than there were, unless a capacity test has passed for what it leaves. -/
theorem exec_totalWords {i : Instr} (hs : Assoc.sorted s.seg = true) (h : exec i s = .next t) :
    t.totalWords ≤ s.totalWords ∨ s.fits t.totalWords = true := by
  cases exec_effect h
  case sstore a b c g g' hg _ hw => exact .inl (State.totalWords_replace hs hg (Segment.len_write hw) rfl).le
  case mapReuse b c id hc _ _ => exact .inr (State.fits_totalWords_of_capacity hs hc rfl)
  case mapFresh b c hc _ _ => exact .inr (State.fits_totalWords_of_capacity hs hc rfl)
  case unmap c _ _ => exact .inl (s.wordsBut_le_totalWords _)
  case loadp b c g _ _ hc =>
    refine .inr ?_
    rw [State.totalWords_put (t := (s.setProgram g).setPc (s.readReg c)) hs rfl, ← s.dataWords_eq_wordsBut]
    exact hc
  all_goals exact .inl le_rfl

/-- Settles O36: every instruction that adds words has passed its capacity test, and CAP_WORDS is the same after it. -/
theorem stepStaysWithinCapacity : Obligations.StepStaysWithinCapacity := by
  intro s t ⟨hwf, _⟩ hcap h
  rcases step_cases h with ⟨-, rfl⟩ | ⟨-, -, rfl⟩ | ⟨-, w, -, hx⟩
  · exact hcap
  · exact hcap
  · have hfits : s.fits t.totalWords = true :=
      (exec_totalWords (Memory.wf_iff.mp hwf).1 hx).elim (State.fits_of_le hcap) id
    rwa [State.withinCapacity, State.fits, exec_capWords hx]

end Sys2Proof.Machine
end

section
/-! OUT and IN (spec/45_output_input.md R117, R118), and the streams under every instruction and step: who moves them (R119,
R120), and that nothing but the event at hand is read from them. -/

namespace Sys2Proof.Machine

variable {s t : State}

/-! ### OUT, IN -/

/-- Settles O40: the range check decides between the fatal effect and the emission, whose byte is the number in `x[C]`. -/
theorem outEmitsOneValue : Obligations.OutEmitsOneValue := by
  refine fun c => ⟨fun _ _ _ => decode_of_hasFields, encode3R_toNat (op := 10) (by decide) 0 0 c,
    fun s => ⟨fun hgt => effect_exec (.outLarge c hgt), fun hle hr => ?_⟩⟩
  exact ⟨_, _, effect_exec (.out c hle hr), setWidth_eight_toNat hle, rfl, rfl, fun _ => rfl, keepsMemory_of_seg rfl,
    ⟨rfl, rfl⟩, ⟨rfl, rfl⟩, rfl, rfl⟩

/-- Settles O41: the next event, if there is one, names the effect. -/
theorem inReceivesOneEvent : Obligations.InReceivesOneEvent := by
  refine fun c => ⟨fun _ _ _ => decode_of_hasFields, encode3R_toNat (op := 11) (by decide) 0 0 c,
    fun s rest => ⟨fun hin => effect_exec (.inWait c hin), fun v hin => ?_, fun hin => ?_,
      fun hin => effect_exec (.inFailure c rest hin)⟩⟩
  · refine ⟨_, effect_exec (.inByte c v rest hin), ?_, rfl, rfl, keepsRegistersBut_of_x rfl, keepsMemory_of_seg rfl,
      ⟨rfl, rfl⟩, ⟨rfl, rfl⟩, rfl, rfl⟩
    rw [State.readReg_writeReg_advance, wordOfByte_toNat]
  · exact ⟨_, effect_exec (.inEof c rest hin), State.readReg_writeReg_advance _ c _, rfl, rfl, keepsRegistersBut_of_x rfl,
      keepsMemory_of_seg rfl, ⟨rfl, rfl⟩, ⟨rfl, rfl⟩, rfl, rfl⟩

/-- Settles O43: one effect emits, three consume, and every other leaves both streams as they are. -/
theorem streamsMoveOnlyByOutAndIn : Obligations.StreamsMoveOnlyByOutAndIn := by
  intro i s t h
  cases exec_effect h
  case out c hle _ => exact ⟨.inr ⟨c, _, rfl, setWidth_eight_toNat hle, rfl⟩, .inl rfl, rfl⟩
  case inByte c v rest hin => exact ⟨.inl rfl, .inr ⟨c, _, rfl, hin⟩, rfl⟩
  case inEof c rest hin => exact ⟨.inl rfl, .inr ⟨c, _, rfl, hin⟩, rfl⟩
  case inFailure c rest hin => exact ⟨.inl rfl, .inr ⟨c, _, rfl, hin⟩, rfl⟩
  all_goals exact ⟨.inl rfl, .inl rfl, rfl⟩

/-! ### What a step reads of the streams -/

/-- `s` with the events `later` to come after those delivered, and `other` as the output so far. -/
def State.withStreams (s : State) (later : List InEvent) (other : List Byte) : State :=
  { s with input := s.input ++ later, out := other }

/-- `r` is what came of the way from `s` to `t`, had it begun in `s.withStreams later other`: the same values emitted and
otherwise the same state. -/
def SameBut (later : List InEvent) (other : List Byte) (s t : State) (r : Host.Outcome State Fault Refusal) : Prop :=
  ∃ emitted, t.out = s.out ++ emitted ∧ r = .next (t.withStreams later (other ++ emitted))

variable {later : List InEvent} {other : List Byte} {r : Host.Outcome State Fault Refusal}

/-- A way on which nothing is emitted. -/
theorem SameBut.of_out_eq (hout : t.out = s.out) (h : r = .next (t.withStreams later other)) :
    SameBut later other s t r :=
  ⟨[], by rw [hout, List.append_nil], by rw [h, List.append_nil]⟩

theorem State.withStreams_input_of_cons {e : InEvent} {rest : List InEvent} (h : s.input = e :: rest) :
    (s.withStreams later other).input = e :: (rest ++ later) :=
  congrArg (· ++ later) h

/-- An instruction reads no output and of the input only its first event, so with an event there, or with none to come, it
does the same in other streams. -/
theorem exec_withStreams {i : Instr} (hl : s.input = [] → later = []) (h : exec i s = .next t) :
    SameBut later other s t (exec i (s.withStreams later other)) := by
  cases exec_effect h
  case out c hle hr => exact ⟨_, rfl, effect_exec (.out c hle hr)⟩
  case inWait c hin =>
    have hin' : (s.withStreams later other).input = [] := by rw [State.withStreams, hin, hl hin, List.append_nil]
    exact .of_out_eq rfl (effect_exec (.inWait c hin'))
  case inByte c v rest hin => exact .of_out_eq rfl (effect_exec (.inByte c v _ (State.withStreams_input_of_cons hin)))
  case inEof c rest hin => exact .of_out_eq rfl (effect_exec (.inEof c _ (State.withStreams_input_of_cons hin)))
  case inFailure c rest hin => exact .of_out_eq rfl (effect_exec (.inFailure c _ (State.withStreams_input_of_cons hin)))
  -- named, since `mapNoStorage` has the same result
  case mapNoIdentifier b c hc hf hn => exact .of_out_eq rfl (effect_exec (.mapNoIdentifier b c hc hf hn))
  -- the conditions and the results of the other effects do not name the streams
  all_goals exact .of_out_eq rfl (effect_exec (by constructor <;> assumption))

/-- The same for a step: neither the status nor the fetch names the streams. -/
theorem step_withStreams (hl : s.input = [] → later = []) (h : step s = .next t) :
    SameBut later other s t (step (s.withStreams later other)) := by
  rcases step_cases h with ⟨hne, rfl⟩ | ⟨hs, hf, rfl⟩ | ⟨hs, w, hw, hx⟩
  · exact .of_out_eq rfl (endedMachineStays _ hne)
  · have hs' : (s.withStreams later other).status = .running := hs
    have hf' : (s.withStreams later other).fetch = some (.error .pcOutOfRange) := hf
    exact .of_out_eq rfl (by simp only [step, engineStep, hs', hf']; rfl)
  · rw [step_of_wordAt (s := s.withStreams later other) hs hw]
    exact exec_withStreams hl hx

/-- Settles O44: the streams differ by the events to come alone. -/
theorem stepNeverLooksAhead : Obligations.StepNeverLooksAhead := by
  intro s t later hne h
  obtain ⟨emitted, hout, hstep⟩ := step_withStreams (other := s.out) (fun h0 => absurd h0 hne) h
  rwa [← hout] at hstep

/-- Settles O45: the streams differ by the output alone, no further event being to come. -/
theorem stepNeverReadsOutput : Obligations.StepNeverReadsOutput := by
  intro s t other h
  obtain ⟨emitted, hout, hstep⟩ := step_withStreams (later := []) (other := other) (fun _ => rfl) h
  simp only [State.withStreams, List.append_nil] at hstep
  exact ⟨emitted, hout, hstep⟩

end Sys2Proof.Machine
end

section
/-! LOADP (spec/46_load_program.md R122): the copy under identifier 0, the jump, and the frame of both. -/

namespace Sys2Proof.Machine

/-- Loading a program touches no identifier but 0. -/
theorem State.setProgram_keepsSegmentsBut (s : State) (g : Segment) : KeepsSegmentsBut 0#32 s (s.setProgram g) :=
  fun _ hj => State.reads_put_other (id := 0#32) rfl hj

/-- R122, R57: segment 0 has the length and the words of the segment it was loaded from. -/
theorem State.setProgram_reads_copy {s : State} {id : Word} {g : Segment} (hg : s.segment? id = some g) :
    (s.setProgram g).lenOf 0#32 = some g.len ∧ ∀ i, (s.setProgram g).wordAt 0#32 i = s.wordAt id i := by
  have h0 : (s.setProgram g).segment? 0#32 = some g := State.segment_put_same rfl
  refine ⟨State.lenOf_of_segment h0, fun i => ?_⟩
  rw [State.wordAt_of_segment h0, State.wordAt_of_segment hg]

/-- Settles O46: each clause is one effect of LOADP; the copy is what `setProgram` puts under 0. -/
theorem loadpReplacesProgram : Obligations.LoadpReplacesProgram := by
  refine fun b c => ⟨fun _ _ => decode_of_hasFields, encode3R_toNat (op := 12) (by decide) 0 b c,
    fun s => ⟨fun habs => ?_, fun n hn hb => ?_, fun n hn hb hc => ?_, fun n hn hb hc => ?_⟩⟩
  · exact effect_exec (.loadpAbsent b c (State.absent_of_lenOf habs))
  · obtain ⟨g, hg, rfl⟩ := State.segment_of_lenOf hn
    exact ⟨_, effect_exec (.loadpJump b c g hg hb), rfl, fun _ => rfl, keepsMemory_of_seg rfl, ⟨rfl, rfl⟩,
      ⟨rfl, rfl, rfl⟩, rfl, rfl⟩
  · obtain ⟨g, hg, rfl⟩ := State.segment_of_lenOf hn
    exact effect_exec (.loadpNoStorage b c g hg hb hc)
  · obtain ⟨g, hg, rfl⟩ := State.segment_of_lenOf hn
    obtain ⟨hlen, hword⟩ := State.setProgram_reads_copy hg
    exact ⟨_, effect_exec (.loadp b c g hg hb hc), rfl, hlen, hword, s.setProgram_keepsSegmentsBut g, fun _ => rfl,
      ⟨rfl, rfl⟩, ⟨rfl, rfl, rfl⟩, rfl, rfl⟩

end Sys2Proof.Machine
end

section
/-! LOADV (spec/47_load_value.md R123): its words, and the immediate that arrives in the register as it is. -/

namespace Sys2Proof.Machine

/-- A word of the load-value form; the two fields fill it, so nothing of it is ignored (R61, R65). -/
theorem decode_of_loadvFields {w v : Word} {l : Reg} (hop : w.toNat / 2 ^ 28 = 13) (hl : w.toNat / 2 ^ 25 % 8 = l.val)
    (hv : w.toNat % 2 ^ 25 = v.toNat) : decode w = .loadv l v := by
  have hvl : (fieldBits 0 25 w).setWidth 32 = v := BitVec.eq_of_toNat_eq ((vl_setWidth_toNat w).trans hv)
  rw [decode_of_op hop, ← regField_eq hl, ← hvl]
  rfl

/-- R123: zero-extension keeps the number of an immediate that fits. -/
theorem immediate_of_lt {v : Word} (h : v.toNat < 2 ^ 25) : immediate v = v := by
  apply BitVec.eq_of_toNat_eq
  rw [immediate, BitVec.toNat_setWidth_of_le (by decide), BitVec.toNat_setWidth, Nat.mod_eq_of_lt h]

/-- Settles O50: LOADV has one effect, the write of an immediate that fits. -/
theorem loadvLoadsImmediate : Obligations.LoadvLoadsImmediate := by
  refine fun l v s hv => ⟨fun _ => decode_of_loadvFields, ?_, _, effect_exec (.loadv l v), ?_, rfl,
    keepsAllButRegister_writeReg_advance l _ s⟩
  · rw [encode, encodeLV_toNat, Nat.mod_eq_of_lt hv]
    rfl
  · rw [State.readReg_writeReg_advance, immediate_of_lt hv]

end Sys2Proof.Machine
end

section
/-! Which fatal condition a step raises (spec/60_exceptions.md R131 to R143): the fatal kind in the status after it is
the condition that the state before it leads to. -/

namespace Sys2Proof.Machine

/-- The fatal kind of a status, if it is a fatal one (R131). -/
def Status.fatalKind? : Status → Option FatalKind
  | .running => none
  | .halted => none
  | .fatal k => some k

theorem Status.fatalKind?_eq_some_iff {st : Status} {k : FatalKind} : st.fatalKind? = some k ↔ st = .fatal k := by
  cases st <;> simp [Status.fatalKind?]

variable {s t : State} {id i : Word}

/-! ### The conditions that depend on a segment -/

/-- R133: the mapping check comes first. -/
theorem State.accessCondition_of_absent (h : s.segment? id = none) (i : Word) :
    s.accessCondition id i = some .unmappedSegment := by
  rw [State.accessCondition, State.lenOf_of_absent h]

/-- R134: in a mapped segment the bounds check decides. -/
theorem State.accessCondition_of_segment {g : Segment} (h : s.segment? id = some g) (i : Word) :
    s.accessCondition id i = if g.len ≤ i.toNat then some .outOfBounds else none := by
  rw [State.accessCondition, State.lenOf_of_segment h]

/-- R133: LOADP of an identifier that names nothing. -/
theorem operationCondition_loadp_of_absent {b : Reg} (h : s.segment? (s.readReg b) = none) (c : Reg) :
    operationCondition (.loadp b c) s = some .unmappedSegment := by
  rw [operationCondition, State.lenOf_of_absent h]

/-- R140: LOADP of a mapped segment lacks only storage for the copy, and segment 0 needs none. -/
theorem operationCondition_loadp_of_segment {b : Reg} {g : Segment} (h : s.segment? (s.readReg b) = some g) (c : Reg) :
    operationCondition (.loadp b c) s =
      if s.readReg b = 0#32 ∨ s.capacityForProgram g.len = true then none else some .resourceExhausted := by
  rw [operationCondition, State.lenOf_of_segment h]

/-! ### Instructions and steps -/

/-- An instruction ends in the fatal kind of its condition, and in none where no condition holds. -/
theorem exec_fatalKind? {j : Instr} (hs : s.status = .running) (h : exec j s = .next t) :
    t.status.fatalKind? = operationCondition j s := by
  have hnone : s.status.fatalKind? = none := by rw [hs]; rfl
  cases exec_effect h
  case sloadAbsent hg | sstoreAbsent hg => exact (State.accessCondition_of_absent hg _).symm
  case sloadPast hg hl | sstorePast hg hl => exact ((State.accessCondition_of_segment hg _).trans (if_pos hl)).symm
  case sload hg hl _ | sstore hg hl _ =>
    exact hnone.trans ((State.accessCondition_of_segment hg _).trans (if_neg (Nat.not_le.mpr hl))).symm
  case divZero h0 => exact (if_pos h0).symm
  case div h0 => exact hnone.trans (if_neg h0).symm
  case mapNoStorage hc => exact (if_pos (State.mapExhausted_eq_true_iff.mpr (.inl hc))).symm
  case mapNoIdentifier hc hf hn => exact (if_pos (State.mapExhausted_eq_true_iff.mpr (.inr ⟨hf, hn⟩))).symm
  case mapReuse hc _ hid =>
    have hfree : s.free = [] → s.nextId < 2 ^ 32 := fun hf => absurd hid (hf ▸ List.not_mem_nil)
    exact hnone.trans (if_neg (Bool.eq_false_iff.mp (State.mapExhausted_eq_false_iff.mpr ⟨hc, hfree⟩))).symm
  case mapFresh hc _ hn =>
    exact hnone.trans (if_neg (Bool.eq_false_iff.mp (State.mapExhausted_eq_false_iff.mpr ⟨hc, fun _ => hn⟩))).symm
  case unmapZero h0 => exact (if_pos h0).symm
  case unmapAbsent h0 hm => exact ((if_neg h0).trans (if_neg (Bool.eq_false_iff.mp hm))).symm
  case unmap h0 hm => exact hnone.trans ((if_neg h0).trans (if_pos hm)).symm
  case outLarge hgt => exact (if_pos hgt).symm
  case outWait hle _ | out hle _ => exact hnone.trans (if_neg (Nat.not_lt.mpr hle)).symm
  case inFailure hin => exact (if_pos (by rw [hin]; rfl)).symm
  case inWait hin | inByte hin | inEof hin => exact hnone.trans (if_neg (by simp [hin])).symm
  case loadpAbsent hg => exact (operationCondition_loadp_of_absent hg _).symm
  case loadpJump hg hb => exact hnone.trans ((operationCondition_loadp_of_segment hg _).trans (if_pos (.inl hb))).symm
  case loadp hg _ hc => exact hnone.trans ((operationCondition_loadp_of_segment hg _).trans (if_pos (.inr hc))).symm
  case loadpNoStorage hg hb hc =>
    exact ((operationCondition_loadp_of_segment hg _).trans (if_neg (by simp [hb, hc]))).symm
  case halt | invalid14 | invalid15 => rfl
  -- the instructions that no condition stops
  case cmovMove | cmovKeep | add | mul | nand | loadv => exact hnone

/-- R142: where the fetch finds no word its condition is the one raised; otherwise the instruction's is. -/
theorem step_fatalKind? (hs : s.status = .running) (h : step s = .next t) : t.status.fatalKind? = s.fatalCondition := by
  rcases step_cases h with ⟨hne, -⟩ | ⟨-, hf, rfl⟩ | ⟨-, w, hw, hx⟩
  · exact absurd hs hne
  · cases hw : s.wordAt 0#32 s.pc with
    | none =>
      rw [State.fatalCondition, hw]
      rfl
    | some w => simp [State.fetch_of_wordAt hw] at hf
  · rw [State.fatalCondition, hw]
    exact exec_fatalKind? hs hx

/-- Settles O14: the step answers one state, and the fatal kind of its status is the condition. -/
theorem fatalExactlyWhenConditionHolds : Obligations.FatalExactlyWhenConditionHolds := by
  rintro s k ⟨-, h0, -⟩ hs
  constructor
  · rintro ⟨t, ht, hk⟩
    rw [← step_fatalKind? hs ht, Status.fatalKind?_eq_some_iff, hk]
  · intro hk
    obtain ⟨t, ht⟩ := step_total h0
    exact ⟨t, ht, Status.fatalKind?_eq_some_iff.mp ((step_fatalKind? hs ht).trans hk)⟩

/-- Settles O12: both opcodes decode to an instruction whose one effect is to raise the condition. -/
theorem invalidOpcodeIsFatal : Obligations.InvalidOpcodeIsFatal := by
  refine ⟨fun s w hs hw hop => ?_, fun s => ⟨effect_exec .invalid14, effect_exec .invalid15⟩⟩
  rw [step_of_wordAt hs hw]
  rcases hop with h14 | h15
  · rw [decode_of_op h14]
    exact effect_exec .invalid14
  · rw [decode_of_op h15]
    exact effect_exec .invalid15

end Sys2Proof.Machine
end
